-- ==== Sys2Proof/Word.lean ====
section
/-! DEFINITION. The word types of the MLCA block (spec/00_scope.md R6, R8, R9). -/

namespace Sys2Proof

/-- A register value, memory word, address or pc: a 32-bit vector (R9, `XLEN` of R6). -/
abbrev Word := BitVec 32

/-- One byte position of the address space (R40). -/
abbrev Byte := BitVec 8

/-- The number of a general register, 0 to 31 (R21, `NREG` of R6). -/
abbrev RegNum := Fin 32

/-- A set of registers as a 32-bit vector, bit i set when register i is in it (R208). -/
abbrev RegSet := BitVec 32

end Sys2Proof
end

