-- ==== Sys2Proof/Syntax.lean ====
section
/-! DEFINITION. The instruction set as syntax: the 23 mnemonics, the four formats and the one inductive `Instr`
(spec/00_scope.md R2, spec/30_encoding.md R61, R64 to R66, R70). -/

namespace Sys2Proof

/-- The 23 mnemonics, in the order of the source's table (R2, R70). -/
inductive Mnemonic where
  | add | sub | mul | and | or | slt
  | j | jal | beq | bne
  | addi | lw | sw
  | extract | winst | winsight | wattach | wrepress | suppress | ordeal | ego | panic | meltdown
deriving DecidableEq, Repr, Inhabited

/-- The four formats (R61). `iBranch` is I-BRANCH: the bits of format I, another operand order. -/
inductive Format where
  | r | i | j | iBranch
deriving DecidableEq, Repr, Inhabited

/-- An instruction: one constructor per row of the catalog (R70), its arguments the elements of its OperandVector in
their order (R64 to R66). The `shamt` field of format R, which no instruction uses (R79), is kept so that an
instruction determines its word. In format I `op0` is the `rt` field and `op1` the `rs` field; in I-BRANCH `op0` is the
`rs` field and `op1` the `rt` field (R66). -/
inductive Instr where
  | add (rd rs rt : RegNum) (shamt : BitVec 5)
  | sub (rd rs rt : RegNum) (shamt : BitVec 5)
  | mul (rd rs rt : RegNum) (shamt : BitVec 5)
  | and (rd rs rt : RegNum) (shamt : BitVec 5)
  | or (rd rs rt : RegNum) (shamt : BitVec 5)
  | slt (rd rs rt : RegNum) (shamt : BitVec 5)
  | j (target26 : BitVec 26)
  | jal (target26 : BitVec 26)
  | beq (rs rt : RegNum) (imm16 : BitVec 16)
  | bne (rs rt : RegNum) (imm16 : BitVec 16)
  | addi (rt rs : RegNum) (imm16 : BitVec 16)
  | lw (rt rs : RegNum) (imm16 : BitVec 16)
  | sw (rt rs : RegNum) (imm16 : BitVec 16)
  | extract (op0 op1 : RegNum) (imm16 : BitVec 16)
  | winst (op0 op1 : RegNum) (imm16 : BitVec 16)
  | winsight (op0 op1 : RegNum) (imm16 : BitVec 16)
  | wattach (op0 op1 : RegNum) (imm16 : BitVec 16)
  | wrepress (op0 op1 : RegNum) (imm16 : BitVec 16)
  | suppress (op0 op1 : RegNum) (imm16 : BitVec 16)
  | ordeal (op0 op1 : RegNum) (imm16 : BitVec 16)
  | ego (op0 op1 : RegNum) (imm16 : BitVec 16)
  | panic (op0 op1 : RegNum) (imm16 : BitVec 16)
  | meltdown (op0 op1 : RegNum) (imm16 : BitVec 16)
deriving DecidableEq, Repr

/-- The catalog row an instruction belongs to (R70). -/
def Instr.mnemonic : Instr → Mnemonic
  | .add .. => .add
  | .sub .. => .sub
  | .mul .. => .mul
  | .and .. => .and
  | .or .. => .or
  | .slt .. => .slt
  | .j .. => .j
  | .jal .. => .jal
  | .beq .. => .beq
  | .bne .. => .bne
  | .addi .. => .addi
  | .lw .. => .lw
  | .sw .. => .sw
  | .extract .. => .extract
  | .winst .. => .winst
  | .winsight .. => .winsight
  | .wattach .. => .wattach
  | .wrepress .. => .wrepress
  | .suppress .. => .suppress
  | .ordeal .. => .ordeal
  | .ego .. => .ego
  | .panic .. => .panic
  | .meltdown .. => .meltdown

end Sys2Proof
end

