-- ==== Sys2Proof/Config.lean ====
section
/-! DEFINITION. What one machine fixes at launch and no instruction changes: the open parameters of spec/00_scope.md R7
as plain data (`Launch`), and the values and functions the spec leaves open, as constants with no body. -/

namespace Sys2Proof

/-- The kind of a data access (R44). -/
inductive AccessKind where
  | load | store
deriving DecidableEq, Repr, Inhabited

/-- `BYTE_ORDER` (R42): which byte of a word stands at the lower address. No program can observe it. -/
inductive ByteOrder where
  | little | big
deriving DecidableEq, Repr, Inhabited

/-- One region of word-aligned addresses, first and last included, with the kinds of access `AddrValid` allows there
(R44: a fixed predicate of the address and the kind). -/
structure Region where
  first : Word
  last : Word
  load : Bool
  store : Bool
deriving DecidableEq, Repr, Inhabited

/-- A register slot of the OperandVector of an extended instruction (R66, R154). -/
inductive Slot where
  | op0 | op1
deriving DecidableEq, Repr, Inhabited

/-- Where an extended instruction takes its table index from (R150, R165): the immediate, or a register slot. -/
inductive IndexSlot where
  | imm
  | reg (slot : Slot)
deriving DecidableEq, Repr, Inhabited

/-- `ROLE[m]` of the four work instructions (R156 to R159). -/
structure WorkRole where
  dest : Slot
  src : Slot
deriving DecidableEq, Repr, Inhabited

/-- `ROLE[m]` for every extended mnemonic that has a role to assign (R154 to R164). -/
structure Roles where
  extractDest : Slot
  extractBase : Slot
  extractIndex : IndexSlot
  winst : WorkRole
  winsight : WorkRole
  wattach : WorkRole
  wrepress : WorkRole
  suppressAgent : Slot
  suppressAbno : Slot
  suppressIndex : IndexSlot
  ordealIndex : IndexSlot
  egoDest : Slot
  egoIndex : IndexSlot
  panicTarget : Slot
deriving DecidableEq, Repr, Inhabited

/-- The three kinds of fault, identified by name (R181 to R184). -/
inductive FaultKind where
  | arithmeticOverflow | addressError | illegalInstruction
deriving DecidableEq, Repr, Inhabited

/-- `EMITS[m]`: whether an execution writes a line, for the five instructions where it is open (R152, D32). -/
structure Emits where
  extract : Bool
  suppress : Bool
  ordeal : Bool
  ego : Bool
  meltdown : Bool
deriving DecidableEq, Repr, Inhabited

/-- An entry of `FAV_MULT` or `PUN_MULT`, a non-negative real number (R7, R153, D29). An irrational number has no finite
description, so its entry holds a name that tells it from other entries (log 16); no product with it is one the spec
fixes, but for the product with 0. -/
inductive Multiplier where
  /-- The number `num / den`. -/
  | rational (num den : Nat)
  /-- An irrational number, called `name`. -/
  | irrational (name : Nat)
deriving DecidableEq, Repr, Inhabited

/-- The open parameters of R7 that are data: an argument of the machine, held in `State` and changed by no step. -/
structure Launch where
  /-- `RESET_PC` (R34, R200). -/
  resetPc : Word
  /-- `RESET_REG[i]`; entry 0 is not used (R34). -/
  resetReg : Vector Word 32
  /-- `IMem`: word-aligned address and word, addresses strictly rising (R55, R204). -/
  imem : List (Nat × Word)
  /-- `AddrValid`: an access is valid when some region allows it (R44). -/
  addrValid : List Region
  /-- `CATALOG_ORDER` (R72, R73). -/
  catalogOrder : List Mnemonic
  /-- `BYTE_ORDER` (R42). -/
  byteOrder : ByteOrder
  /-- `IDX_SIGNED` (R150). -/
  idxSigned : Bool
  /-- `ROLE[m]` (R154). -/
  roles : Roles
  /-- `FAV_MULT[0..4]` (R153). -/
  favMult : Vector Multiplier 5
  /-- `PUN_MULT[0..4]` (R153). -/
  punMult : Vector Multiplier 5
  /-- `SEVERITY[0..3]` (R153). -/
  severity : Vector Int 4
  /-- `BONUS[0..4]` (R153). -/
  bonus : Vector Int 5
  /-- `COUNTER_CEILING`, a signed 32-bit integer (R164). -/
  counterCeiling : Word
  /-- `EMITS[m]` (R152). -/
  emits : Emits
  /-- Which random source the host has plugged in (R32, R151, R202). -/
  randomSource : Nat
deriving DecidableEq, Repr, Inhabited

namespace Config

/-- DESIGN CHOICE (log 15): the integer in 0..n-1 that `Draw(n)` returns, free for each source and each draw (R151). -/
opaque randomDraw (source count n : Nat) [NeZero n] : Fin n

/-- DESIGN CHOICE (log 16): `FAV_MULT`, which the source does not give (R153, U6). -/
opaque favMult : Vector Multiplier 5

/-- DESIGN CHOICE (log 16): `PUN_MULT`, which the source does not give (R153, U6). -/
opaque punMult : Vector Multiplier 5

/-- DESIGN CHOICE (log 16): `SEVERITY`, which the source does not give (R153, U6). -/
opaque severity : Vector Int 4

/-- DESIGN CHOICE (log 16): `BONUS`, which the source does not give (R153, U6). -/
opaque bonus : Vector Int 5

/-- DESIGN CHOICE (log 16): `COUNTER_CEILING`, which the source does not give (R164, U6). -/
opaque counterCeiling : Word

/-- DESIGN CHOICE (log 19): `EMITS[m]`, zero or one line, which the source does not say (R152, U12). -/
opaque emits : Emits

/-- DESIGN CHOICE (log 15): the random source of the machine after reset, which is the host's (R202). -/
opaque randomSource : Nat

/-- DESIGN CHOICE (log 17): `ExtractGain(k, r)` where the product is not exactly representable (R155, D34, U9). -/
opaque extractGainInexact (mult : Multiplier) (k : Fin 5) (r : Fin 10) : Nat

/-- DESIGN CHOICE (log 17): `SuppressWins(a, b, k)` where the product is no integer (R160, D33, U10). -/
opaque suppressWinsInexact (mult : Multiplier) (a b : Word) (k : Fin 5) : Bool

/-- DESIGN CHOICE (log 18): `MeltPenalty(v)` where the exact difference leaves the 32-bit range (R164, U7). -/
opaque meltPenaltyCorner (v : Word) : Word

/-- DESIGN CHOICE (log 18): `CounterNext(INT_MAX)` under a ceiling (R164, U8). -/
opaque counterNextCorner (ceiling : Word) : Word

/-- DESIGN CHOICE (log 19): `EmitText(m, …)` of the five instructions whose line and arguments the spec gives
(R156 to R159, R163, U12). -/
opaque emitText (m : Mnemonic) (args : List Word) : String

/-- DESIGN CHOICE (log 19): the text of a line whose arguments the spec leaves open; `nth` is the line's place in the
output, so that two lines need not agree (R152, U12). -/
opaque emitOpenText (m : Mnemonic) (args : List Word) (nth : Nat) : String

/-- DESIGN CHOICE (log 12): `FAULT_CODE`, a numeric encoding for a host that wants one; nothing in the machine stores or
tests it (R184, D20). -/
opaque faultCode (k : FaultKind) : Nat

end Config

end Sys2Proof
end

