-- ==== Sys2Proof/WellFormed.lean ====
section
/-! DEFINITION. The checks on syntax and on launch parameters (spec/00_scope.md R7, spec/20_memory.md R55,
spec/30_encoding.md R72 to R74, R79, spec/70_reset_and_hazards.md R200, R204). -/

namespace Sys2Proof

/-- The 23 mnemonics in the order of the source's table (R70). -/
def Mnemonic.all : List Mnemonic :=
  [.add, .sub, .mul, .and, .or, .slt, .j, .jal, .beq, .bne, .addi, .lw, .sw,
   .extract, .winst, .winsight, .wattach, .wrepress, .suppress, .ordeal, .ego, .panic, .meltdown]

/-- `CATALOG_ORDER` is a permutation of the 23 descriptors (R7). -/
def catalogOrderOk (order : List Mnemonic) : Bool :=
  order.isPerm Mnemonic.all

/-- The other row of the one pair of descriptors with identical match and mask (R73). -/
def Mnemonic.collidesWith : Mnemonic → Option Mnemonic
  | .mul => some .and
  | .and => some .mul
  | _ => none

/-- The Dispatcher can select row `m`: no row with the same fixed bits is registered before it (R72 to R74). -/
def Mnemonic.reachable (order : List Mnemonic) (m : Mnemonic) : Bool :=
  match m.collidesWith with
  | none => true
  | some other => decide (order.idxOf m < order.idxOf other)

/-- An instruction is well formed under a catalog order when its row is reachable in it (R74). Every field has exactly
the width of its encoding, so no other check remains (R21, R62). -/
def Instr.wellFormed (order : List Mnemonic) (i : Instr) : Bool :=
  i.mnemonic.reachable order

/-- A register operand that the roles leave unused must be register 0 in a canonical instruction (R79). -/
def unusedIsZero (used : List Slot) (op0 op1 : RegNum) : Bool :=
  (used.contains .op0 || op0 == 0) && (used.contains .op1 || op1 == 0)

/-- The slots an index takes up (R150). -/
def IndexSlot.slots : IndexSlot → List Slot
  | .imm => []
  | .reg slot => [slot]

/-- The immediate is used, or zero (R79). -/
def immUsedOrZero (ix : IndexSlot) (imm16 : BitVec 16) : Bool :=
  ix == .imm || imm16 == 0

/-- Every don't-care bit is 0 (R79): the canonical encoding of an instruction under the roles. -/
def Instr.canonical (roles : Roles) : Instr → Bool
  | .add _ _ _ shamt | .sub _ _ _ shamt | .mul _ _ _ shamt
  | .and _ _ _ shamt | .or _ _ _ shamt | .slt _ _ _ shamt => shamt == 0
  | .j _ | .jal _ | .beq _ _ _ | .bne _ _ _ | .addi _ _ _ | .lw _ _ _ | .sw _ _ _ => true
  | .extract op0 op1 imm16 =>
    unusedIsZero ([roles.extractDest, roles.extractBase] ++ roles.extractIndex.slots) op0 op1
      && immUsedOrZero roles.extractIndex imm16
  | .winst op0 op1 _ => unusedIsZero [roles.winst.dest, roles.winst.src] op0 op1
  | .winsight op0 op1 _ => unusedIsZero [roles.winsight.dest, roles.winsight.src] op0 op1
  | .wattach op0 op1 _ => unusedIsZero [roles.wattach.dest, roles.wattach.src] op0 op1
  | .wrepress op0 op1 _ => unusedIsZero [roles.wrepress.dest, roles.wrepress.src] op0 op1
  | .suppress op0 op1 imm16 =>
    unusedIsZero ([roles.suppressAgent, roles.suppressAbno] ++ roles.suppressIndex.slots) op0 op1
      && immUsedOrZero roles.suppressIndex imm16
  | .ordeal op0 op1 imm16 =>
    unusedIsZero roles.ordealIndex.slots op0 op1 && immUsedOrZero roles.ordealIndex imm16
  | .ego op0 op1 imm16 =>
    unusedIsZero (roles.egoDest :: roles.egoIndex.slots) op0 op1 && immUsedOrZero roles.egoIndex imm16
  | .panic op0 op1 imm16 => unusedIsZero [roles.panicTarget] op0 op1 && imm16 == 0
  | .meltdown op0 op1 imm16 => unusedIsZero [] op0 op1 && imm16 == 0

/-- A multiplier is a number: its denominator is not 0 (R153). -/
def Multiplier.ok : Multiplier → Bool
  | .rational _ den => den != 0
  | .irrational _ => true

/-- The program is a contiguous run of words from `RESET_PC`, inside the address space (R204). DESIGN CHOICE (log 26): a
program whose last word is at 0xFFFFFFFC is refused, since `END_PC` would be 2^32. -/
def programOk (resetPc : Word) (imem : List (Nat × Word)) : Bool :=
  imem.map Prod.fst == (List.range imem.length).map (fun k => resetPc.toNat + 4 * k)
    && decide (resetPc.toNat + 4 * imem.length < 2 ^ 32)

/-- A launch record the spec allows (R7, R200, R204). -/
def Launch.wellFormed (p : Launch) : Bool :=
  decide (p.resetPc.toNat % 4 = 0)
    && programOk p.resetPc p.imem
    && catalogOrderOk p.catalogOrder
    && p.favMult.toList.all Multiplier.ok
    && p.punMult.toList.all Multiplier.ok

end Sys2Proof
end

