-- ==== Sys2Proof/Decode.lean ====
section
/-! DEFINITION. The decoder: field extraction, the catalog of 23 descriptors, the Dispatcher, the decoder's outputs, and
after them the packing of the Operand Codec (spec/30_encoding.md R60 to R81). -/

namespace Sys2Proof

/-- The eight fields of R62, extracted from every word whatever its format (R63). -/
structure Fields where
  opcode : BitVec 6
  rs : RegNum
  rt : RegNum
  rd : RegNum
  shamt : BitVec 5
  funct : BitVec 6
  imm16 : BitVec 16
  target26 : BitVec 26
deriving DecidableEq, Repr

/-- The field extractor (R62). -/
def fieldsOf (w : Word) : Fields :=
  { opcode := w.extractLsb' 26 6
    rs := (w.extractLsb' 21 5).toFin
    rt := (w.extractLsb' 16 5).toFin
    rd := (w.extractLsb' 11 5).toFin
    shamt := w.extractLsb' 6 5
    funct := w.extractLsb' 0 6
    imm16 := w.extractLsb' 0 16
    target26 := w.extractLsb' 0 26 }

/-- A row of the catalog: idx, opcode, format and, in format R, funct (R70). -/
structure Descriptor where
  idx : BitVec 5
  format : Format
  opcode : BitVec 6
  funct : Option (BitVec 6)
deriving DecidableEq, Repr

/-- The catalog, the source's table bit for bit (R70). It is a constant (R71). -/
def Mnemonic.descriptor : Mnemonic → Descriptor
  | .add      => ⟨0,  .r,       0b000000, some 0b100000⟩
  | .sub      => ⟨1,  .r,       0b000000, some 0b100010⟩
  | .mul      => ⟨2,  .r,       0b000000, some 0b100100⟩
  | .and      => ⟨3,  .r,       0b000000, some 0b100100⟩
  | .or       => ⟨4,  .r,       0b000000, some 0b100101⟩
  | .slt      => ⟨5,  .r,       0b000000, some 0b101010⟩
  | .j        => ⟨6,  .j,       0b000010, none⟩
  | .jal      => ⟨7,  .j,       0b000011, none⟩
  | .beq      => ⟨8,  .iBranch, 0b000100, none⟩
  | .bne      => ⟨9,  .iBranch, 0b000101, none⟩
  | .addi     => ⟨10, .i,       0b001000, none⟩
  | .lw       => ⟨11, .i,       0b100011, none⟩
  | .sw       => ⟨12, .i,       0b101011, none⟩
  | .extract  => ⟨13, .i,       0b010000, none⟩
  | .winst    => ⟨14, .i,       0b010001, none⟩
  | .winsight => ⟨15, .i,       0b010010, none⟩
  | .wattach  => ⟨16, .i,       0b010011, none⟩
  | .wrepress => ⟨17, .i,       0b010100, none⟩
  | .suppress => ⟨18, .i,       0b010101, none⟩
  | .ordeal   => ⟨19, .i,       0b010110, none⟩
  | .ego      => ⟨20, .iBranch, 0b010111, none⟩
  | .panic    => ⟨21, .i,       0b011000, none⟩
  | .meltdown => ⟨22, .i,       0b011001, none⟩

/-- The mask: 1 at every fixed bit, the opcode and, in format R, the funct (R69). -/
def Mnemonic.mask (m : Mnemonic) : Word :=
  match m.descriptor.funct with
  | some _ => 0xFC00003F
  | none => 0xFC000000

/-- The match: the values of the fixed bits, 0 elsewhere (R69). -/
def Mnemonic.pattern (m : Mnemonic) : Word :=
  match m.descriptor.funct with
  | some f => (m.descriptor.opcode.zeroExtend 32 <<< 26) ||| f.zeroExtend 32
  | none => m.descriptor.opcode.zeroExtend 32 <<< 26

/-- A word matches a descriptor when its fixed bits agree (R69). -/
def Mnemonic.matchesWord (m : Mnemonic) (w : Word) : Bool :=
  w &&& m.mask == m.pattern

/-- The Dispatcher: the first registered match wins (R72). -/
def dispatch (order : List Mnemonic) (w : Word) : Option Mnemonic :=
  order.find? (fun m => m.matchesWord w)

/-- The OperandVector of a format: raw, unextended integers in a fixed order (R64 to R66). -/
def operandVector (f : Format) (d : Fields) : List Nat :=
  match f with
  | .r => [d.rd.val, d.rs.val, d.rt.val]
  | .j => [d.target26.toNat]
  | .i => [d.rt.val, d.rs.val, d.imm16.toNat]
  | .iBranch => [d.rs.val, d.rt.val, d.imm16.toNat]

/-- The decoder's outputs for a word that matches (R75). -/
structure DecodeRecord where
  idx : BitVec 5
  mnemonic : Mnemonic
  format : Format
  fields : Fields
  ops : List Nat
deriving DecidableEq, Repr

/-- The outputs for a word matched by row `m` (R75). -/
def recordOf (m : Mnemonic) (w : Word) : DecodeRecord :=
  { idx := m.descriptor.idx
    mnemonic := m
    format := m.descriptor.format
    fields := fieldsOf w
    ops := operandVector m.descriptor.format (fieldsOf w) }

/-- `Decode(w)`: the record of the first matching row, `none` for an illegal word (R75, R76). -/
def decodeRecord (order : List Mnemonic) (w : Word) : Option DecodeRecord :=
  (dispatch order w).map (fun m => recordOf m w)

/-- The instruction of row `m` with the fields `d` (R64 to R66). -/
def Instr.ofFields (m : Mnemonic) (d : Fields) : Instr :=
  match m with
  | .add => .add d.rd d.rs d.rt d.shamt
  | .sub => .sub d.rd d.rs d.rt d.shamt
  | .mul => .mul d.rd d.rs d.rt d.shamt
  | .and => .and d.rd d.rs d.rt d.shamt
  | .or => .or d.rd d.rs d.rt d.shamt
  | .slt => .slt d.rd d.rs d.rt d.shamt
  | .j => .j d.target26
  | .jal => .jal d.target26
  | .beq => .beq d.rs d.rt d.imm16
  | .bne => .bne d.rs d.rt d.imm16
  | .addi => .addi d.rt d.rs d.imm16
  | .lw => .lw d.rt d.rs d.imm16
  | .sw => .sw d.rt d.rs d.imm16
  | .extract => .extract d.rt d.rs d.imm16
  | .winst => .winst d.rt d.rs d.imm16
  | .winsight => .winsight d.rt d.rs d.imm16
  | .wattach => .wattach d.rt d.rs d.imm16
  | .wrepress => .wrepress d.rt d.rs d.imm16
  | .suppress => .suppress d.rt d.rs d.imm16
  | .ordeal => .ordeal d.rt d.rs d.imm16
  | .ego => .ego d.rs d.rt d.imm16
  | .panic => .panic d.rt d.rs d.imm16
  | .meltdown => .meltdown d.rt d.rs d.imm16

/-- The decoder's verdict on a word (R75): an instruction, or the word named as illegal (R76). -/
inductive Verdict where
  | illegal (w : Word)
  | legal (i : Instr)
deriving DecidableEq, Repr

/-- Decoding: total on all words, a pure function of the word and the catalog order (R75, R76). -/
def decode (order : List Mnemonic) (w : Word) : Verdict :=
  match decodeRecord order w with
  | none => .illegal w
  | some d => .legal (Instr.ofFields d.mnemonic d.fields)

/-- `match | (rs << 21) | (rt << 16) | (rd << 11) | (shamt << 6)`: packing in format R (R81). -/
def packR (m : Mnemonic) (rd rs rt : RegNum) (shamt : BitVec 5) : Word :=
  m.pattern ||| ((BitVec.ofFin rs : BitVec 5).zeroExtend 32 <<< 21)
    ||| ((BitVec.ofFin rt : BitVec 5).zeroExtend 32 <<< 16)
    ||| ((BitVec.ofFin rd : BitVec 5).zeroExtend 32 <<< 11)
    ||| (shamt.zeroExtend 32 <<< 6)

/-- `match | (rs << 21) | (rt << 16) | imm16`: packing in formats I and I-BRANCH (R81). -/
def packI (m : Mnemonic) (rs rt : RegNum) (imm16 : BitVec 16) : Word :=
  m.pattern ||| ((BitVec.ofFin rs : BitVec 5).zeroExtend 32 <<< 21)
    ||| ((BitVec.ofFin rt : BitVec 5).zeroExtend 32 <<< 16)
    ||| imm16.zeroExtend 32

/-- `match | target26`: packing in format J (R81). -/
def packJ (m : Mnemonic) (target26 : BitVec 26) : Word :=
  m.pattern ||| target26.zeroExtend 32

/-- `Encode`: the word of an instruction (R81). -/
def encode : Instr → Word
  | .add rd rs rt shamt => packR .add rd rs rt shamt
  | .sub rd rs rt shamt => packR .sub rd rs rt shamt
  | .mul rd rs rt shamt => packR .mul rd rs rt shamt
  | .and rd rs rt shamt => packR .and rd rs rt shamt
  | .or rd rs rt shamt => packR .or rd rs rt shamt
  | .slt rd rs rt shamt => packR .slt rd rs rt shamt
  | .j target26 => packJ .j target26
  | .jal target26 => packJ .jal target26
  | .beq rs rt imm16 => packI .beq rs rt imm16
  | .bne rs rt imm16 => packI .bne rs rt imm16
  | .addi rt rs imm16 => packI .addi rs rt imm16
  | .lw rt rs imm16 => packI .lw rs rt imm16
  | .sw rt rs imm16 => packI .sw rs rt imm16
  | .extract op0 op1 imm16 => packI .extract op1 op0 imm16
  | .winst op0 op1 imm16 => packI .winst op1 op0 imm16
  | .winsight op0 op1 imm16 => packI .winsight op1 op0 imm16
  | .wattach op0 op1 imm16 => packI .wattach op1 op0 imm16
  | .wrepress op0 op1 imm16 => packI .wrepress op1 op0 imm16
  | .suppress op0 op1 imm16 => packI .suppress op1 op0 imm16
  | .ordeal op0 op1 imm16 => packI .ordeal op1 op0 imm16
  | .ego op0 op1 imm16 => packI .ego op0 op1 imm16
  | .panic op0 op1 imm16 => packI .panic op1 op0 imm16
  | .meltdown op0 op1 imm16 => packI .meltdown op1 op0 imm16

/-- DESIGN CHOICE (log 2): the default `CATALOG_ORDER` is the order of the source's table, in which mul precedes `and`
(R73, D5). -/
def defaultCatalogOrder : List Mnemonic := Mnemonic.all

/-- The instruction word of a table row: `nbits` bits of `w`, every bit above them 0 (R60: one 32-bit word). -/
def tableWord (nbits w : Nat) : Word :=
  BitVec.ofNat 32 (w % 2 ^ nbits)

/-- The instruction the decoder reads from a row's word under the default catalog order (R73). -/
def decodeTableWord (nbits w : Nat) : Option Instr :=
  match decode defaultCatalogOrder (tableWord nbits w) with
  | .legal i => some i
  | .illegal _ => none

end Sys2Proof
end

