-- ==== Sys2Proof/Machine/Launch.lean ====
section
/-! DEFINITION. The launch parameters of the machine after reset: the default or example value where the spec gives one
(spec/00_scope.md R7), an opaque constant of Config where it gives none. -/

namespace Sys2Proof.Machine

/-- DESIGN CHOICE (log 13): `RESET_PC` is the spec's example value (R34, R200, D21). -/
def defaultResetPc : Word := 0x00400000

/-- DESIGN CHOICE (log 14): `RESET_REG[i]` is the spec's default, zero (R34, R200, D22). -/
def defaultResetReg : Vector Word 32 := Vector.replicate 32 0

/-- DESIGN CHOICE (log 9): `AddrValid` is the spec's example, true on 0x10010000 to 0x1001FFFC for both kinds (R7, D16). -/
def defaultAddrValid : List Region :=
  [{ first := 0x10010000, last := 0x1001FFFC, load := true, store := true }]

/-- DESIGN CHOICE (log 7): `BYTE_ORDER` is the one of the spec's examples, little (R42, D15). -/
def defaultByteOrder : ByteOrder := .little

/-- DESIGN CHOICE (log 20): `IDX_SIGNED` is the spec's default, false (R150, D27). -/
def defaultIdxSigned : Bool := false

/-- The default role of a work instruction: `dest = op0`, `src = op1` (R156). -/
def defaultWorkRole : WorkRole := { dest := .op0, src := .op1 }

/-- DESIGN CHOICE (log 20): `ROLE[m]` are the spec's defaults (R154 to R164, D28). -/
def defaultRoles : Roles :=
  { extractDest := .op0
    extractBase := .op1
    extractIndex := .imm
    winst := defaultWorkRole
    winsight := defaultWorkRole
    wattach := defaultWorkRole
    wrepress := defaultWorkRole
    suppressAgent := .op0
    suppressAbno := .op1
    suppressIndex := .imm
    ordealIndex := .imm
    egoDest := .op0
    egoIndex := .imm
    panicTarget := .op0 }

/-- The launch parameters after reset. `IMem` is empty: the program is the host's (R34, R202, log 10). -/
def defaultLaunch : Launch :=
  { resetPc := defaultResetPc
    resetReg := defaultResetReg
    imem := []
    addrValid := defaultAddrValid
    catalogOrder := defaultCatalogOrder
    byteOrder := defaultByteOrder
    idxSigned := defaultIdxSigned
    roles := defaultRoles
    favMult := Config.favMult
    punMult := Config.punMult
    severity := Config.severity
    bonus := Config.bonus
    counterCeiling := Config.counterCeiling
    emits := Config.emits
    randomSource := Config.randomSource }

end Sys2Proof.Machine
end

