-- ==== Sys2Proof/Machine/State.lean ====
section
/-! DEFINITION. The machine's state as plain data, the reasons a step can stop, and the state after reset
(spec/10_state.md R20 to R34, spec/60_exceptions.md R180 to R186, spec/70_reset_and_hazards.md R200 to R209). -/

namespace Sys2Proof.Machine

/-- Data memory: address and byte, in the canonical form of `Memory.wf` (R40, R42). -/
abbrev Memory := List Host.Cell

/-- One call of `Emit` (R152). -/
inductive EmitEvent where
  /-- A line whose arguments the spec gives: `EmitText(m, args)` (R156 to R159, R163). -/
  | stated (m : Mnemonic) (args : List Word)
  /-- A line whose text the spec leaves open; the register and the delta are recorded, and its place in the output
  (R152, U12, log 19). -/
  | free (m : Mnemonic) (args : List Word) (nth : Nat)
deriving DecidableEq, Repr

/-- The register hazard detector: its latch (R208) and the outputs it drove in the last step (R209). -/
structure Detector where
  prevWs : RegSet
  hazard : Bool
  hazardRs : Bool
  hazardRt : Bool
deriving DecidableEq, Repr

/-- The state of the machine. `regs`, `pc` and `mem` are the architectural state (R20), `detector` the hidden latch
(R33), `launch` the constants of R7; `drawCount` and `emitted` are the model's record of the two external collaborators
(R32). -/
structure State where
  /-- `x[0]` to `x[31]` (R21); read and written only through `readReg` and `writeReg`. -/
  regs : Vector Word 32
  /-- The address of the instruction to be executed (R26). -/
  pc : Word
  /-- Data memory (R20, R40). -/
  mem : Memory
  /-- The hazard detector (R33, R208, R209). -/
  detector : Detector
  /-- How many draws have been taken from the random source (R151, log 15). -/
  drawCount : Nat
  /-- The lines handed to the text sink, oldest first (R32, R152, log 19). -/
  emitted : List EmitEvent
  /-- The launch parameters, changed by no step (R7, log 1). -/
  launch : Launch
deriving DecidableEq, Repr

/-- What a fault leaves: the pc and the word `IMem(pc)`, which the report names (R186), and the hazard detector, which a
step that faults drives like any other and which is no part of the report (R208, R209, log 12). -/
structure FaultSite where
  pc : Word
  word : Option Word
  detector : Detector
deriving DecidableEq, Repr

/-- The reasons a step ends without a next state (R180). Registers, memory and pc are then those of the state the step
was taken from (R186, log 12). -/
inductive Fault where
  /-- Raised by add, sub and addi on signed overflow (R181). Safe: the spec's own outcome. -/
  | arithmeticOverflow (site : FaultSite)
  /-- Raised by lw and sw at a misaligned or out-of-range address (R182). Safe: the spec's own outcome. -/
  | addressError (site : FaultSite) (a : Word) (kind : AccessKind)
  /-- Raised by the step for a word that matches no descriptor (R183). Safe: the spec's own outcome. -/
  | illegalInstruction (site : FaultSite) (w : Word)
  /-- There is no step: `IMem(pc)` is undefined and `pc` is not `END_PC` (R55, R204). Safe: the machine stops. -/
  | stuck (pc : Word)
  /-- There is no step: `pc = END_PC`, the run is finished; not a failure (R204, log 11). Safe: the machine stops. -/
  | finished (pc : Word)
deriving DecidableEq, Repr

/-- The reasons the model gives an instruction no meaning. -/
inductive Refusal where
  /-- Raised by `exec` alone, for an instruction the model does not give a meaning yet. Safe: the machine stops. -/
  | notModelled (mnemonic : String)
deriving DecidableEq, Repr

/-- The detector after reset: an empty latch (R34, R200) and outputs 0 (log 22). -/
def Detector.reset : Detector :=
  { prevWs := 0, hazard := false, hazardRs := false, hazardRt := false }

/-- The state after reset of a machine with the launch parameters `p` and the launch memory `mem` (R34, R200, R201). -/
def State.boot (p : Launch) (mem : Memory) : State :=
  { regs := p.resetReg.set 0 0
    pc := p.resetPc
    mem := mem
    detector := Detector.reset
    drawCount := 0
    emitted := []
    launch := p }

/-- The machine right after reset (R34, R200): the spec's defaults, no memory cell listed, no program loaded (log 10). -/
def State.reset : State := State.boot defaultLaunch []

end Sys2Proof.Machine
end

