-- ==== Sys2Proof/Machine/Flags.lean ====
section
/-! DEFINITION. The overflow conditions. The machine has no flags (spec/10_state.md R29); overflow is a failure
(spec/40_alu.md R101, R102). -/

namespace Sys2Proof.Machine

/-- `sign(v)`: bit 31 (R9). -/
def sign (v : Word) : Bool := v.msb

/-- `AddOvf(a, b)`: same signs, and the wrapped sum has the other sign (R101). -/
def addOvf (a b : Word) : Bool :=
  sign a == sign b && sign (a + b) != sign a

/-- `SubOvf(a, b)`: different signs, and the wrapped difference has the sign of `b` (R102, C2). -/
def subOvf (a b : Word) : Bool :=
  sign a != sign b && sign (a - b) != sign a

end Sys2Proof.Machine
end

