-- ==== Sys2Proof/Machine/Ops.lean ====
section
/-! DEFINITION. The primitives of spec/00_scope.md R10 over registers, pc, memory, instruction memory, the random source
and the text sink, and raising a fault (spec/60_exceptions.md R186). -/

namespace Sys2Proof

/-! ## The launch parameters -/

/-- `IMem(a)`, a partial map (R55). -/
def imemAt : List (Nat × Word) → Nat → Option Word
  | [], _ => none
  | (k, w) :: rest, a => if k = a then some w else imemAt rest a

/-- `IMem` with `w` at address `a`, addresses strictly rising. -/
def imemInsert : List (Nat × Word) → Nat → Word → List (Nat × Word)
  | [], a, w => [(a, w)]
  | (k, v) :: rest, a, w =>
    if a < k then (a, w) :: (k, v) :: rest
    else if a = k then (a, w) :: rest
    else (k, v) :: imemInsert rest a w

/-- `END_PC`: one past the last program word (R7, R204). DESIGN CHOICE (log 26): computed modulo 2^32, so it is 0 for a
program whose last word is at 0xFFFFFFFC. -/
def Launch.endPc (p : Launch) : Word := p.resetPc + 4 * BitVec.ofNat 32 p.imem.length

/-- The region allows an access of this kind at `a`. -/
def Region.allows (g : Region) (a : Word) (kind : AccessKind) : Bool :=
  decide (g.first.toNat ≤ a.toNat) && decide (a.toNat ≤ g.last.toNat) &&
    (match kind with
     | .load => g.load
     | .store => g.store)

/-- `AddrValid(a, kind)` (R44). -/
def Launch.addrOk (p : Launch) (a : Word) (kind : AccessKind) : Bool :=
  p.addrValid.any (fun g => g.allows a kind)

end Sys2Proof

namespace Sys2Proof.Machine

/-! ## Registers -/

/-- `x[i]`: register 0 reads as zero (R22). -/
def State.readReg (s : State) (r : RegNum) : Word :=
  if r = 0 then 0 else s.regs[r]

/-- `x[i] <- v`: a write to register 0 is discarded (R22, log 5). -/
def State.writeReg (s : State) (r : RegNum) (v : Word) : State :=
  if r = 0 then s else { s with regs := s.regs.set r v }

/-! ## Program counter -/

/-- `pc <- t` (R120). -/
def State.setPc (s : State) (t : Word) : State := { s with pc := t }

/-- Sequential advance, modulo 2^32 (R28, R121). -/
def State.advance (s : State) : State := s.setPc (s.pc + 4)

/-! ## Instruction memory -/

/-- The word at `pc`, if `IMem` is defined there (R120). -/
def State.fetch (s : State) : Option Word := imemAt s.launch.imem s.pc.toNat

/-- The state with the word `w` in `IMem` at the address the next step fetches from. -/
def State.placeWord (s : State) (w : Word) : State :=
  { s with launch := { s.launch with imem := imemInsert s.launch.imem s.pc.toNat w } }

/-! ## Raising a fault -/

/-- What a fault raised in `s` leaves (R186); the step drives the detector afterwards (R209). -/
def State.site (s : State) : FaultSite := { pc := s.pc, word := s.fetch, detector := s.detector }

/-- `raise F` (R186): the instruction ends here, nothing is written, the pc keeps the address of the instruction, and the
report goes to the host. There is no handler and nothing to return to (R189, R190). -/
def raise (mk : FaultSite → Fault) (s : State) : Host.Outcome State Fault Refusal :=
  .fault (mk s.site)

/-- `raise ArithmeticOverflow` (R181). -/
def raiseOverflow (s : State) : Host.Outcome State Fault Refusal :=
  raise .arithmeticOverflow s

/-- `raise IllegalInstruction(w)` (R183). -/
def raiseIllegal (w : Word) (s : State) : Host.Outcome State Fault Refusal :=
  raise (fun site => .illegalInstruction site w) s

/-- An AddressError of one of the two memory primitives: the address and the kind (R182). -/
structure AddressError where
  a : Word
  kind : AccessKind
deriving DecidableEq, Repr

/-- `raise AddressError(a, kind)` (R182). -/
def raiseAddress (e : AddressError) (s : State) : Host.Outcome State Fault Refusal :=
  raise (fun site => .addressError site e.a e.kind) s

/-- The kind of a fault, `none` for the two ways to have no step (R180, R184). -/
def Fault.kind : Fault → Option FaultKind
  | .arithmeticOverflow _ => some .arithmeticOverflow
  | .addressError _ _ _ => some .addressError
  | .illegalInstruction _ _ => some .illegalInstruction
  | .stuck _ => none
  | .finished _ => none

/-- The fault with the hazard detector as `d`; where there was no step there is nothing to drive (R208, R209). -/
def Fault.withDetector (d : Detector) : Fault → Fault
  | .arithmeticOverflow site => .arithmeticOverflow { site with detector := d }
  | .addressError site a kind => .addressError { site with detector := d } a kind
  | .illegalInstruction site w => .illegalInstruction { site with detector := d } w
  | .stuck pc => .stuck pc
  | .finished pc => .finished pc

/-- The numeric code of a fault for a host that wants one (R184). -/
def Fault.code (f : Fault) : Option Nat := f.kind.map Config.faultCode

/-! ## Data memory -/

/-- DESIGN CHOICE (log 8): what a byte that nothing has written reads as. -/
def unlistedByte : Byte := 0

/-- The byte at an address. -/
def Memory.readByte : Memory → Nat → Byte
  | [], _ => unlistedByte
  | (k, b) :: rest, a => if k = a then b else Memory.readByte rest a

/-- The memory with byte `v` at address `a`; a byte equal to what an unlisted address reads as is not listed. -/
def Memory.writeByte : Memory → Nat → Byte → Memory
  | [], a, v => if v = unlistedByte then [] else [(a, v)]
  | (k, b) :: rest, a, v =>
    if a < k then (if v = unlistedByte then (k, b) :: rest else (a, v) :: (k, b) :: rest)
    else if a = k then (if v = unlistedByte then rest else (a, v) :: rest)
    else (k, b) :: Memory.writeByte rest a v

/-- Every address of the list is above `lo`, strictly rising and inside the address space, and no entry is equal to
what an unlisted address reads as. -/
def Memory.wfFrom : Nat → Memory → Bool
  | _, [] => true
  | lo, (k, b) :: rest =>
    decide (lo ≤ k) && decide (k < 2 ^ 32) && decide (b ≠ unlistedByte) && Memory.wfFrom (k + 1) rest

/-- The canonical form of memory. -/
def Memory.wf (m : Memory) : Bool := Memory.wfFrom 0 m

/-- The place, 0 for the least significant, of the byte that stands `k` addresses above a word's own (R42). -/
def bytePlace (order : ByteOrder) (k : Nat) : Nat :=
  match order with
  | .little => k
  | .big => 3 - k

/-- Byte number `place` of a word, 0 for the least significant. -/
def byteOf (v : Word) (place : Nat) : Byte := v.extractLsb' (8 * place) 8

/-- The word made of four bytes, the least significant first. -/
def wordOfBytes (b0 b1 b2 b3 : Byte) : Word := b3 ++ b2 ++ b1 ++ b0

/-- The aligned word at byte address `a` (R42, R47). -/
def Memory.readWord (order : ByteOrder) (m : Memory) (a : Nat) : Word :=
  match order with
  | .little => wordOfBytes (m.readByte a) (m.readByte (a + 1)) (m.readByte (a + 2)) (m.readByte (a + 3))
  | .big => wordOfBytes (m.readByte (a + 3)) (m.readByte (a + 2)) (m.readByte (a + 1)) (m.readByte a)

/-- All 32 bits of `v` stored at byte address `a` (R42, R48). -/
def Memory.writeWord (order : ByteOrder) (m : Memory) (a : Nat) (v : Word) : Memory :=
  (((m.writeByte a (byteOf v (bytePlace order 0))).writeByte (a + 1) (byteOf v (bytePlace order 1))).writeByte
    (a + 2) (byteOf v (bytePlace order 2))).writeByte (a + 3) (byteOf v (bytePlace order 3))

/-- `a` is a multiple of 4: `a[1:0] = 00` (R43). -/
def aligned (a : Word) : Bool := a.extractLsb' 0 2 == 0

/-- An access at `a` transfers data: aligned and valid (R43, R44). -/
def State.accessible (s : State) (a : Word) (kind : AccessKind) : Bool :=
  aligned a && s.launch.addrOk a kind

/-- `MemRead(a, 4)` (R47). -/
def memRead (s : State) (a : Word) : Except AddressError Word :=
  if s.accessible a .load then .ok (s.mem.readWord s.launch.byteOrder a.toNat)
  else .error { a := a, kind := .load }

/-- `MemWrite(a, 4, v)` (R48). -/
def memWrite (s : State) (a : Word) (v : Word) : Except AddressError State :=
  if s.accessible a .store then .ok { s with mem := s.mem.writeWord s.launch.byteOrder a.toNat v }
  else .error { a := a, kind := .store }

/-! ## The random source and the text sink -/

/-- `Draw(n)`: the integer the source gives this time (R151, log 15). -/
def State.drawn (s : State) (n : Nat) [NeZero n] : Fin n :=
  Config.randomDraw s.launch.randomSource s.drawCount n

/-- The state after one draw (R151). -/
def State.afterDraw (s : State) : State := { s with drawCount := s.drawCount + 1 }

/-- `Emit(line)` (R152). -/
def State.emit (s : State) (e : EmitEvent) : State := { s with emitted := s.emitted ++ [e] }

/-- `Emit` of a line whose text is open, if this machine writes one (R152, U12, log 19). -/
def State.emitIf (s : State) (writes : Bool) (m : Mnemonic) (args : List Word) : State :=
  if writes then s.emit (.free m args s.emitted.length) else s

/-- The line of text of an event (R152, R156 to R159, R163). -/
def EmitEvent.line : EmitEvent → String
  | .stated m args => Config.emitText m args
  | .free m args nth => Config.emitOpenText m args nth

end Sys2Proof.Machine
end

