-- ==== Sys2Proof/Machine/Operands.lean ====
section
/-! DEFINITION. Operand forms: sign extension, the operand slots of the extended instructions, the clamped index, the
effective address and the transfer targets (spec/30_encoding.md R66 to R68, spec/41_control.md R122 to R124,
spec/42_loadstore.md R140, spec/43_extended.md R150). -/

namespace Sys2Proof.Machine

/-- `sext_32` of a 16-bit field (R9, R67). -/
def sext32 (f : BitVec 16) : Word := f.signExtend 32

/-- `EA = x[rs] + sext_32(imm16)`, modulo 2^32, never an overflow (R140, log 23). -/
def effectiveAddress (base : Word) (imm16 : BitVec 16) : Word := base + sext32 imm16

/-- The jump target: the region of the following instruction, the field shifted left by 2 (R68, R122, log 6). -/
def jumpTarget (pc : Word) (target26 : BitVec 26) : Word :=
  let region : Word := (pc + 4) &&& 0xF0000000
  let offset : Word := target26.zeroExtend 32 <<< 2
  region ||| offset

/-- `BranchTarget(pc, imm16)` (R124, log 6). -/
def branchTarget (pc : Word) (imm16 : BitVec 16) : Word :=
  let following : Word := pc + 4
  let offset : Word := sext32 imm16 <<< 2
  following + offset

/-- The register an operand slot names (R66, R154). -/
def slotReg (slot : Slot) (op0 op1 : RegNum) : RegNum :=
  match slot with
  | .op0 => op0
  | .op1 => op1

/-- `clamp(v, lo, hi)` on integers (R150). -/
def clamp (v lo hi : Int) : Int :=
  if v < lo then lo else if v > hi then hi else v

/-- `Index(d)` of the immediate: sign-extended if `IDX_SIGNED` (R150). -/
def immIndex (isSigned : Bool) (imm16 : BitVec 16) : Int :=
  if isSigned then (sext32 imm16).toInt else (imm16.toNat : Int)

/-- The index of an extended instruction: the immediate, or the value of a register slot under another `ROLE[m]`
(R150, R165, log 20). -/
def State.index (s : State) (ix : IndexSlot) (op0 op1 : RegNum) (imm16 : BitVec 16) : Int :=
  match ix with
  | .imm => immIndex s.launch.idxSigned imm16
  | .reg slot =>
    if s.launch.idxSigned then (s.readReg (slotReg slot op0 op1)).toInt
    else ((s.readReg (slotReg slot op0 op1)).toNat : Int)

/-- The clamped index as a place in a table of 5 entries: `clamp(v, 0, 4)` (R150). -/
def tier (v : Int) : Fin 5 :=
  ⟨(clamp v 0 4).toNat, by unfold clamp; split <;> [decide; split <;> omega]⟩

/-- The clamped index as a place in ordeal's table of 4 entries: `clamp(v, 0, 3)` (R150, R161, C5). -/
def level (v : Int) : Fin 4 :=
  ⟨(clamp v 0 3).toNat, by unfold clamp; split <;> [decide; split <;> omega]⟩

end Sys2Proof.Machine
end

