-- ==== Sys2Proof/Machine/Alu.lean ====
section
/-! DEFINITION. The base arithmetic and logic instructions over one execution unit (spec/40_alu.md R100 to R112). -/

namespace Sys2Proof.Machine

/-- The operation selector of the execution unit (R100). -/
inductive AluOp where
  | add | sub | mul | and | or | slt
deriving DecidableEq, Repr

/-- The result of `Alu(op, a, b)` (R100). -/
def aluResult (op : AluOp) (a b : Word) : Word :=
  match op with
  | .add => a + b
  | .sub => a - b
  | .mul => BitVec.ofInt 32 (a.toInt * b.toInt)
  | .and => a &&& b
  | .or => a ||| b
  | .slt => if a.toInt < b.toInt then 1 else 0

/-- The `ovf` output of `Alu(op, a, b)` (R100 to R102). -/
def aluOvf (op : AluOp) (a b : Word) : Bool :=
  match op with
  | .add => addOvf a b
  | .sub => subOvf a b
  | .mul | .and | .or | .slt => false

/-- Run the unit on `a` and `b`: raise ArithmeticOverflow with the write suppressed, or write register `rd` and
advance (R100, R103 to R109). -/
def aluInto (op : AluOp) (rd : RegNum) (a b : Word) (s : State) : Host.Outcome State Fault Refusal :=
  if aluOvf op a b then raiseOverflow s
  else .next ((s.writeReg rd (aluResult op a b)).advance)

/-- add (R103). -/
def execAdd (rd rs rt : RegNum) (s : State) : Host.Outcome State Fault Refusal :=
  aluInto .add rd (s.readReg rs) (s.readReg rt) s

/-- sub (R104): minuend `x[rs]`, subtrahend `x[rt]` (log 4). -/
def execSub (rd rs rt : RegNum) (s : State) : Host.Outcome State Fault Refusal :=
  aluInto .sub rd (s.readReg rs) (s.readReg rt) s

/-- mul (R105): the low 32 bits of the exact product. -/
def execMul (rd rs rt : RegNum) (s : State) : Host.Outcome State Fault Refusal :=
  aluInto .mul rd (s.readReg rs) (s.readReg rt) s

/-- and (R106). -/
def execAnd (rd rs rt : RegNum) (s : State) : Host.Outcome State Fault Refusal :=
  aluInto .and rd (s.readReg rs) (s.readReg rt) s

/-- or (R107). -/
def execOr (rd rs rt : RegNum) (s : State) : Host.Outcome State Fault Refusal :=
  aluInto .or rd (s.readReg rs) (s.readReg rt) s

/-- slt (R108): `x[rs] < x[rt]`, signed (log 4). -/
def execSlt (rd rs rt : RegNum) (s : State) : Host.Outcome State Fault Refusal :=
  aluInto .slt rd (s.readReg rs) (s.readReg rt) s

/-- addi (R109): destination `rt`, source `rs` (log 4). -/
def execAddi (rt rs : RegNum) (imm16 : BitVec 16) (s : State) : Host.Outcome State Fault Refusal :=
  aluInto .add rt (s.readReg rs) (sext32 imm16) s

end Sys2Proof.Machine
end

