-- ==== Sys2Proof/Machine/Control.lean ====
section
/-! DEFINITION. Jumps and branches (spec/41_control.md R120 to R129). There is no delay slot (R127). -/

namespace Sys2Proof.Machine

/-- The next pc of a branch (R125, R126, R129). -/
def branchPc (taken : Bool) (pc : Word) (imm16 : BitVec 16) : Word :=
  if taken then branchTarget pc imm16 else pc + 4

/-- j (R122). -/
def execJ (target26 : BitVec 26) (s : State) : Host.Outcome State Fault Refusal :=
  .next (s.setPc (jumpTarget s.pc target26))

/-- jal (R123): the return address `pc + 4` into register 31. -/
def execJal (target26 : BitVec 26) (s : State) : Host.Outcome State Fault Refusal :=
  .next ((s.writeReg 31 (s.pc + 4)).setPc (jumpTarget s.pc target26))

/-- beq (R125). -/
def execBeq (rs rt : RegNum) (imm16 : BitVec 16) (s : State) : Host.Outcome State Fault Refusal :=
  .next (s.setPc (branchPc (s.readReg rs == s.readReg rt) s.pc imm16))

/-- bne (R126). -/
def execBne (rs rt : RegNum) (imm16 : BitVec 16) (s : State) : Host.Outcome State Fault Refusal :=
  .next (s.setPc (branchPc (s.readReg rs != s.readReg rt) s.pc imm16))

/-- The pc unit as a pure function of the pc, the instruction and the registers; applied when the instruction did not
fail (R129). -/
def nextPc (i : Instr) (s : State) : Word :=
  match i with
  | .j target26 | .jal target26 => jumpTarget s.pc target26
  | .beq rs rt imm16 => branchPc (s.readReg rs == s.readReg rt) s.pc imm16
  | .bne rs rt imm16 => branchPc (s.readReg rs != s.readReg rt) s.pc imm16
  | .add _ _ _ _ | .sub _ _ _ _ | .mul _ _ _ _ | .and _ _ _ _ | .or _ _ _ _ | .slt _ _ _ _ | .addi _ _ _
  | .lw _ _ _ | .sw _ _ _ | .extract _ _ _ | .winst _ _ _ | .winsight _ _ _ | .wattach _ _ _ | .wrepress _ _ _
  | .suppress _ _ _ | .ordeal _ _ _ | .ego _ _ _ | .panic _ _ _ | .meltdown _ _ _ => s.pc + 4

end Sys2Proof.Machine
end

