-- ==== Sys2Proof/Machine/Extended.lean ====
section
/-! DEFINITION. The ten extended instructions (spec/43_extended.md R150 to R165). None of them can fail (R154); their
register arithmetic wraps modulo 2^32 (R154, log 21). -/

namespace Sys2Proof

/-! ## Tables and the functions over them -/

/-- `num / den` is exactly representable (D34). DESIGN CHOICE (log 17): it is a finite binary32 number, that is
`m × 2^j / 2^e` with a significand `m` of 24 bits, `j` up to 104 and `e` up to 149, so that exact arithmetic, binary32 and
every wider binary format hold it. -/
def isBinary32 (num den : Nat) : Bool :=
  let g := Nat.gcd num den
  den != 0 && decide (2 ^ 149 % (den / g) = 0) && decide (num / g / Nat.gcd (num / g) (2 ^ 104) < 2 ^ 24)

/-- The floor of `mult × n`, where the product is exactly representable (R155, D34). -/
def Multiplier.exactFloor (mult : Multiplier) (n : Nat) : Option Nat :=
  match mult with
  | .rational num den => if isBinary32 (num * n) den then some (num * n / den) else none
  | .irrational _ => if n = 0 then some 0 else none

/-- `ExtractGain(k, r) = floor(FAV_MULT[k] × (1 + r))` (R155); where the product is not exactly representable its
value is free (D34, U9, log 17). -/
def Launch.extractGain (p : Launch) (k : Fin 5) (r : Fin 10) : Nat :=
  let mult := p.favMult[k]
  (mult.exactFloor (1 + r.val)).getD (Config.extractGainInexact mult k r)

/-- The product `sint(b) × mult`, where it is an exact integer (D33). -/
def Multiplier.exactInteger (mult : Multiplier) (b : Word) : Option Int :=
  match mult with
  | .rational num den =>
    if den ≠ 0 ∧ b.toInt * (num : Int) % (den : Int) = 0 then some (b.toInt * (num : Int) / (den : Int)) else none
  | .irrational _ => if b = 0 then some 0 else none

/-- `SuppressWins(a, b, k)`: `sint(a) > sint(b) × PUN_MULT[k]` where the product is an exact integer; otherwise free
(R160, D33, U10, log 17). -/
def Launch.suppressWins (p : Launch) (a b : Word) (k : Fin 5) : Bool :=
  let mult := p.punMult[k]
  match mult.exactInteger b with
  | some product => decide (a.toInt > product)
  | none => Config.suppressWinsInexact mult a b k

end Sys2Proof

namespace Sys2Proof.Machine

/-- `MELT_PENALTY` (R6). -/
def meltPenaltyAmount : Int := 10

/-- `MeltPenalty(v) = max(0, sint(v) - 10)`; free where the exact difference is below the 32-bit range (R164, U7,
log 18). -/
def meltPenalty (v : Word) : Word :=
  if v.toInt - meltPenaltyAmount < -(2 ^ 31) then Config.meltPenaltyCorner v
  else BitVec.ofInt 32 (max 0 (v.toInt - meltPenaltyAmount))

/-- `CounterNext(c) = min(COUNTER_CEILING, sint(c) + 1)`; free where the exact sum is above the 32-bit range (R164, U8,
log 18). -/
def counterNext (ceiling c : Word) : Word :=
  if c.toInt + 1 ≥ 2 ^ 31 then Config.counterNextCorner ceiling
  else BitVec.ofInt 32 (min ceiling.toInt (c.toInt + 1))

/-! ## extract -/

/-- extract with the drawn value `r` (R155). -/
def extractWith (r : Fin 10) (op0 op1 : RegNum) (imm16 : BitVec 16) (s : State) : State :=
  let k := tier (s.index s.launch.roles.extractIndex op0 op1 imm16)
  let dest := slotReg s.launch.roles.extractDest op0 op1
  let base := s.readReg (slotReg s.launch.roles.extractBase op0 op1)
  let gain : Word := BitVec.ofNat 32 (s.launch.extractGain k r)
  ((s.writeReg dest (base + 1 + gain)).emitIf s.launch.emits.extract .extract
    [BitVec.ofNat 32 dest.val, 1 + gain]).advance

/-- extract (R155). -/
def execExtract (op0 op1 : RegNum) (imm16 : BitVec 16) (s : State) : Host.Outcome State Fault Refusal :=
  .next (extractWith (s.drawn 10) op0 op1 imm16 s.afterDraw)

/-! ## The four work instructions -/

/-- The shape the four work instructions share (R156). -/
def work (m : Mnemonic) (role : WorkRole) (op0 op1 : RegNum) (imm16 : BitVec 16) (s : State) : State :=
  let dest := slotReg role.dest op0 op1
  let src := s.readReg (slotReg role.src op0 op1)
  ((s.writeReg dest (src + sext32 imm16)).emit
    (.stated m [BitVec.ofNat 32 dest.val, sext32 imm16])).advance

/-- winst (R156). -/
def execWinst (op0 op1 : RegNum) (imm16 : BitVec 16) (s : State) : Host.Outcome State Fault Refusal :=
  .next (work .winst s.launch.roles.winst op0 op1 imm16 s)

/-- winsight (R157). -/
def execWinsight (op0 op1 : RegNum) (imm16 : BitVec 16) (s : State) : Host.Outcome State Fault Refusal :=
  .next (work .winsight s.launch.roles.winsight op0 op1 imm16 s)

/-- wattach (R158). -/
def execWattach (op0 op1 : RegNum) (imm16 : BitVec 16) (s : State) : Host.Outcome State Fault Refusal :=
  .next (work .wattach s.launch.roles.wattach op0 op1 imm16 s)

/-- wrepress (R159). -/
def execWrepress (op0 op1 : RegNum) (imm16 : BitVec 16) (s : State) : Host.Outcome State Fault Refusal :=
  .next (work .wrepress s.launch.roles.wrepress op0 op1 imm16 s)

/-! ## suppress -/

/-- `BOOLREG` (R6, R23). -/
def boolReg : RegNum := 2

/-- suppress (R160): the verdict into register 2, whatever the operands. -/
def execSuppress (op0 op1 : RegNum) (imm16 : BitVec 16) (s : State) : Host.Outcome State Fault Refusal :=
  let k := tier (s.index s.launch.roles.suppressIndex op0 op1 imm16)
  let agent := s.readReg (slotReg s.launch.roles.suppressAgent op0 op1)
  let abno := s.readReg (slotReg s.launch.roles.suppressAbno op0 op1)
  let verdict : Word := if s.launch.suppressWins agent abno k then 1 else 0
  .next (((s.writeReg boolReg verdict).emitIf s.launch.emits.suppress .suppress
    [BitVec.ofNat 32 boolReg.val, verdict]).advance)

/-! ## ordeal -/

/-- Register `8 + d` of the agent band (R23, R161). -/
def bandReg (d : Fin 8) : RegNum := ⟨8 + d.val, by omega⟩

/-- ordeal with the drawn value `d` (R161). -/
def ordealWith (d : Fin 8) (op0 op1 : RegNum) (imm16 : BitVec 16) (s : State) : State :=
  let k := level (s.index s.launch.roles.ordealIndex op0 op1 imm16)
  let delta := BitVec.ofInt 32 s.launch.severity[k]
  ((s.writeReg (bandReg d) (s.readReg (bandReg d) - delta)).emitIf s.launch.emits.ordeal .ordeal
    [BitVec.ofNat 32 (bandReg d).val, -delta]).advance

/-- ordeal (R161). -/
def execOrdeal (op0 op1 : RegNum) (imm16 : BitVec 16) (s : State) : Host.Outcome State Fault Refusal :=
  .next (ordealWith (s.drawn 8) op0 op1 imm16 s.afterDraw)

/-! ## ego -/

/-- ego (R162): the destination is also the source. -/
def execEgo (op0 op1 : RegNum) (imm16 : BitVec 16) (s : State) : Host.Outcome State Fault Refusal :=
  let k := tier (s.index s.launch.roles.egoIndex op0 op1 imm16)
  let dest := slotReg s.launch.roles.egoDest op0 op1
  let delta := BitVec.ofInt 32 s.launch.bonus[k]
  .next (((s.writeReg dest (s.readReg dest + delta)).emitIf s.launch.emits.ego .ego
    [BitVec.ofNat 32 dest.val, delta]).advance)

/-! ## panic -/

/-- panic (R163): the target becomes 0, one line is written. -/
def execPanic (op0 op1 : RegNum) (s : State) : Host.Outcome State Fault Refusal :=
  let target := slotReg s.launch.roles.panicTarget op0 op1
  .next (((s.writeReg target 0).emit (.stated .panic [BitVec.ofNat 32 target.val])).advance)

/-! ## meltdown -/

/-- `BAND` (R6): registers 8 to 15, ascending. -/
def bandRegs : List RegNum := [8, 9, 10, 11, 12, 13, 14, 15]

/-- `BASEPTR` (R6, R23). -/
def basePtr : RegNum := 28

/-- Step (a) of meltdown: the penalty on every register of the band, ascending (R164). -/
def penaliseBand (s : State) : State :=
  bandRegs.foldl (fun t r => t.writeReg r (meltPenalty (t.readReg r))) s

/-- The address of the global risk counter (R50, R164). -/
def counterAddress (s : State) : Word := s.readReg basePtr + 4

/-- Step (b) of meltdown: the counter's read, increment and write back; an AddressError of either access is swallowed
and leaves the counter alone (R164, R191). -/
def bumpCounter (s : State) : State :=
  match memRead s (counterAddress s) with
  | .error _ => s
  | .ok c =>
    match memWrite s (counterAddress s) (counterNext s.launch.counterCeiling c) with
    | .error _ => s
    | .ok t => t

/-- meltdown (R164): no operand is used. -/
def execMeltdown (s : State) : Host.Outcome State Fault Refusal :=
  .next (((bumpCounter (penaliseBand s)).emitIf s.launch.emits.meltdown .meltdown
    (bandRegs.map (fun r => BitVec.ofNat 32 r.val) ++ [BitVec.ofInt 32 (-meltPenaltyAmount)])).advance)

end Sys2Proof.Machine
end

