-- ==== Sys2Proof/Machine/LoadStore.lean ====
section
/-! DEFINITION. lw and sw (spec/42_loadstore.md R140 to R145). -/

namespace Sys2Proof.Machine

/-- lw (R141): destination `rt`, base `rs`. -/
def execLw (rt rs : RegNum) (imm16 : BitVec 16) (s : State) : Host.Outcome State Fault Refusal :=
  match memRead s (effectiveAddress (s.readReg rs) imm16) with
  | .ok v => .next ((s.writeReg rt v).advance)
  | .error e => raiseAddress e s

/-- sw (R142): data `rt`, base `rs`. -/
def execSw (rt rs : RegNum) (imm16 : BitVec 16) (s : State) : Host.Outcome State Fault Refusal :=
  match memWrite s (effectiveAddress (s.readReg rs) imm16) (s.readReg rt) with
  | .ok t => .next t.advance
  | .error e => raiseAddress e s

end Sys2Proof.Machine
end

