-- ==== Sys2Proof/Machine/Dispatch.lean ====
section
/-! DEFINITION. The handler of every descriptor (spec/30_encoding.md R70, spec/41_control.md R120): one arm per constructor. -/

namespace Sys2Proof.Machine

/-- Run the rule that the instruction's catalog row names (R120). -/
def exec (i : Instr) (s : State) : Host.Outcome State Fault Refusal :=
  match i with
  | .add rd rs rt _ => Sys2Proof.Machine.execAdd rd rs rt s
  | .sub rd rs rt _ => Sys2Proof.Machine.execSub rd rs rt s
  | .mul rd rs rt _ => Sys2Proof.Machine.execMul rd rs rt s
  | .and rd rs rt _ => Sys2Proof.Machine.execAnd rd rs rt s
  | .or rd rs rt _ => Sys2Proof.Machine.execOr rd rs rt s
  | .slt rd rs rt _ => Sys2Proof.Machine.execSlt rd rs rt s
  | .j target26 => Sys2Proof.Machine.execJ target26 s
  | .jal target26 => Sys2Proof.Machine.execJal target26 s
  | .beq rs rt imm16 => Sys2Proof.Machine.execBeq rs rt imm16 s
  | .bne rs rt imm16 => Sys2Proof.Machine.execBne rs rt imm16 s
  | .addi rt rs imm16 => Sys2Proof.Machine.execAddi rt rs imm16 s
  | .lw rt rs imm16 => Sys2Proof.Machine.execLw rt rs imm16 s
  | .sw rt rs imm16 => Sys2Proof.Machine.execSw rt rs imm16 s
  | .extract op0 op1 imm16 => Sys2Proof.Machine.execExtract op0 op1 imm16 s
  | .winst op0 op1 imm16 => Sys2Proof.Machine.execWinst op0 op1 imm16 s
  | .winsight op0 op1 imm16 => Sys2Proof.Machine.execWinsight op0 op1 imm16 s
  | .wattach op0 op1 imm16 => Sys2Proof.Machine.execWattach op0 op1 imm16 s
  | .wrepress op0 op1 imm16 => Sys2Proof.Machine.execWrepress op0 op1 imm16 s
  | .suppress op0 op1 imm16 => Sys2Proof.Machine.execSuppress op0 op1 imm16 s
  | .ordeal op0 op1 imm16 => Sys2Proof.Machine.execOrdeal op0 op1 imm16 s
  | .ego op0 op1 imm16 => Sys2Proof.Machine.execEgo op0 op1 imm16 s
  | .panic op0 op1 _ => Sys2Proof.Machine.execPanic op0 op1 s
  | .meltdown _ _ _ => Sys2Proof.Machine.execMeltdown s

end Sys2Proof.Machine
end

