-- ==== Sys2Proof/Machine/Hazard.lean ====
section
/-! DEFINITION. The register hazard detector, a pure observer (spec/70_reset_and_hazards.md R206 to R210). -/

namespace Sys2Proof.Machine

/-- The set of the registers of a list, register 0 left out (R207, R208). -/
def regSet : List RegNum → RegSet
  | [] => 0
  | r :: rest => if r = 0 then regSet rest else ((1 : RegSet) <<< r.val) ||| regSet rest

/-- Register `r` is in the set. -/
def inSet (r : RegNum) (set : RegSet) : Bool := set.getLsbD r.val

/-- The agent band (R23). -/
def agentBand : List RegNum := [8, 9, 10, 11, 12, 13, 14, 15]

/-- The register an index is read from, if any (R150, R207). -/
def indexRegs (ix : IndexSlot) (op0 op1 : RegNum) : List RegNum :=
  match ix with
  | .imm => []
  | .reg slot => [slotReg slot op0 op1]

/-- `ReadSet` as a list (R207), under the roles. -/
def readRegs (roles : Roles) : Instr → List RegNum
  | .add _ rs rt _ | .sub _ rs rt _ | .mul _ rs rt _ | .and _ rs rt _ | .or _ rs rt _ | .slt _ rs rt _ => [rs, rt]
  | .addi _ rs _ | .lw _ rs _ => [rs]
  | .sw rt rs _ => [rs, rt]
  | .beq rs rt _ | .bne rs rt _ => [rs, rt]
  | .j _ | .jal _ => []
  | .extract op0 op1 _ => slotReg roles.extractBase op0 op1 :: indexRegs roles.extractIndex op0 op1
  | .winst op0 op1 _ => [slotReg roles.winst.src op0 op1]
  | .winsight op0 op1 _ => [slotReg roles.winsight.src op0 op1]
  | .wattach op0 op1 _ => [slotReg roles.wattach.src op0 op1]
  | .wrepress op0 op1 _ => [slotReg roles.wrepress.src op0 op1]
  | .suppress op0 op1 _ =>
    slotReg roles.suppressAgent op0 op1 :: slotReg roles.suppressAbno op0 op1
      :: indexRegs roles.suppressIndex op0 op1
  | .ordeal op0 op1 _ => agentBand ++ indexRegs roles.ordealIndex op0 op1
  | .ego op0 op1 _ => slotReg roles.egoDest op0 op1 :: indexRegs roles.egoIndex op0 op1
  | .panic _ _ _ => []
  | .meltdown _ _ _ => agentBand ++ [28]

/-- `WriteSet` as a list (R207), under the roles. -/
def writeRegs (roles : Roles) : Instr → List RegNum
  | .add rd _ _ _ | .sub rd _ _ _ | .mul rd _ _ _ | .and rd _ _ _ | .or rd _ _ _ | .slt rd _ _ _ => [rd]
  | .addi rt _ _ | .lw rt _ _ => [rt]
  | .sw _ _ _ | .beq _ _ _ | .bne _ _ _ | .j _ => []
  | .jal _ => [31]
  | .extract op0 op1 _ => [slotReg roles.extractDest op0 op1]
  | .winst op0 op1 _ => [slotReg roles.winst.dest op0 op1]
  | .winsight op0 op1 _ => [slotReg roles.winsight.dest op0 op1]
  | .wattach op0 op1 _ => [slotReg roles.wattach.dest op0 op1]
  | .wrepress op0 op1 _ => [slotReg roles.wrepress.dest op0 op1]
  | .suppress _ _ _ => [2]
  | .ordeal _ _ _ => agentBand
  | .ego op0 op1 _ => [slotReg roles.egoDest op0 op1]
  | .panic op0 op1 _ => [slotReg roles.panicTarget op0 op1]
  | .meltdown _ _ _ => agentBand

/-- `ReadSet` (R207). -/
def readSet (roles : Roles) (i : Instr) : RegSet := regSet (readRegs roles i)

/-- `WriteSet` (R207). -/
def writeSet (roles : Roles) (i : Instr) : RegSet := regSet (writeRegs roles i)

/-- The part of `ReadSet` that the two per-field outputs look at: the implicit reads of ordeal and meltdown are
reflected in `hazard` only (R209, log 22). -/
def explicitReadSet (roles : Roles) : Instr → RegSet
  | .ordeal op0 op1 _ => regSet (indexRegs roles.ordealIndex op0 op1)
  | .meltdown _ _ _ => 0
  | i => readSet roles i

/-- `ReadSet` of a decoded word: the instruction's, and empty for an illegal word (R207). -/
def verdictReadSet (roles : Roles) : Verdict → RegSet
  | .illegal _ => 0
  | .legal i => readSet roles i

/-- `WriteSet` of a decoded word: the instruction's, and empty for an illegal word (R207). -/
def verdictWriteSet (roles : Roles) : Verdict → RegSet
  | .illegal _ => 0
  | .legal i => writeSet roles i

/-- The explicit part of `ReadSet` of a decoded word (R209). -/
def verdictExplicitReadSet (roles : Roles) : Verdict → RegSet
  | .illegal _ => 0
  | .legal i => explicitReadSet roles i

/-- The detector after the step of a word with the fields `d` and the verdict `v` (R208, R209). -/
def Detector.observe (roles : Roles) (d : Fields) (v : Verdict) (prev : Detector) : Detector :=
  { prevWs := verdictWriteSet roles v
    hazard := (prev.prevWs &&& verdictReadSet roles v) != 0
    hazardRs := inSet d.rs (verdictExplicitReadSet roles v) && inSet d.rs prev.prevWs
    hazardRt := inSet d.rt (verdictExplicitReadSet roles v) && inSet d.rt prev.prevWs }

/-- The outcome of the step of the word `w` from `s` with the detector driven, on a next state and on a fault alike: the
sets are those of the decoded word, whether or not it faults (R207 to R209). -/
def driveDetector (w : Word) (v : Verdict) (s : State) :
    Host.Outcome State Fault Refusal → Host.Outcome State Fault Refusal
  | .next t => .next { t with detector := s.detector.observe s.launch.roles (fieldsOf w) v }
  | .fault f => .fault (f.withDetector (s.detector.observe s.launch.roles (fieldsOf w) v))
  | .refused r => .refused r

/-- There is no word to run: the run is finished at `END_PC`, else the machine is stuck (R55, R204). -/
def noStep (s : State) : Host.Outcome State Fault Refusal :=
  if s.pc = s.launch.endPc then .fault (.finished s.pc) else .fault (.stuck s.pc)

end Sys2Proof.Machine
end

