-- ==== Sys2Proof/Machine/Step.lean ====
section
/-! DEFINITION. One step of the machine (spec/41_control.md R120), and placing a word where the next step fetches. -/

namespace Sys2Proof.Machine

/-- Fetch the word at `pc`, decode it, run its rule, drive the hazard detector (R11, R120, R209). -/
def step (s : State) : Host.Outcome State Fault Refusal :=
  match s.fetch with
  | none => noStep s
  | some w =>
    match decode s.launch.catalogOrder w with
    | .illegal v => driveDetector w (.illegal v) s (raiseIllegal v s)
    | .legal i => driveDetector w (.legal i) s (exec i s)

/-- `s` with the instruction word in `IMem` at `pc`, where the next step fetches (log 10). -/
def State.withFetchWord (s : State) (nbits w : Nat) : State :=
  s.placeWord (tableWord nbits w)

end Sys2Proof.Machine
end

