-- ==== Sys2Proof/Safety.lean ====
section
/-! DEFINITION. The terms claims are stated in: runs and their ends (spec/70_reset_and_hazards.md R204,
spec/60_exceptions.md R189), frames, and the invariant of the state (spec/10_state.md R22, R27, spec/20_memory.md R40,
spec/70_reset_and_hazards.md R208). -/

namespace Sys2Proof

/-- The opcode map of R77: the values of bits 31..26, other than 0, that select a descriptor. -/
def opcodeMap : List (Nat × Mnemonic) :=
  [(0b000010, .j), (0b000011, .jal), (0b000100, .beq), (0b000101, .bne), (0b001000, .addi),
   (0b010000, .extract), (0b010001, .winst), (0b010010, .winsight), (0b010011, .wattach), (0b010100, .wrepress),
   (0b010101, .suppress), (0b010110, .ordeal), (0b010111, .ego), (0b011000, .panic), (0b011001, .meltdown),
   (0b100011, .lw), (0b101011, .sw)]

/-- The funct map of R77: the values of bits 5..0, other than 100100, that select a descriptor under opcode 0. -/
def functMap : List (Nat × Mnemonic) :=
  [(0b100000, .add), (0b100010, .sub), (0b100101, .or), (0b101010, .slt)]

/-- The format of each row, from the table of R70. -/
def formatOf (m : Mnemonic) : Format :=
  if m ∈ [Mnemonic.add, .sub, .mul, .and, .or, .slt] then .r
  else if m ∈ [Mnemonic.j, .jal] then .j
  else if m ∈ [Mnemonic.beq, .bne, .ego] then .iBranch
  else .i

/-- `x` is a number that an entry of `FAV_MULT` or `PUN_MULT` stands for (R7, D29). -/
def Multiplier.denotes (mult : Multiplier) (x : ℝ) : Prop :=
  match mult with
  | .rational num den => den ≠ 0 ∧ x = num / den
  | .irrational _ => 0 ≤ x ∧ Irrational x

/-- `x` is a finite binary32 number: a significand of 24 bits and an exponent of that format (log 17). -/
def isBinary32Real (x : ℝ) : Prop :=
  ∃ m j e : Nat, m < 2 ^ 24 ∧ j ≤ 104 ∧ e ≤ 149 ∧ x * 2 ^ e = m * 2 ^ j

/-- The operands of an instruction as unextended integers, in the order its rule lists them (R64 to R66). -/
def Instr.operands : Instr → List Nat
  | .add rd rs rt _ | .sub rd rs rt _ | .mul rd rs rt _ | .and rd rs rt _ | .or rd rs rt _ | .slt rd rs rt _ =>
    [rd.val, rs.val, rt.val]
  | .j target26 | .jal target26 => [target26.toNat]
  | .beq a b imm16 | .bne a b imm16 | .addi a b imm16 | .lw a b imm16 | .sw a b imm16 | .extract a b imm16
  | .winst a b imm16 | .winsight a b imm16 | .wattach a b imm16 | .wrepress a b imm16 | .suppress a b imm16
  | .ordeal a b imm16 | .ego a b imm16 | .panic a b imm16 | .meltdown a b imm16 => [a.val, b.val, imm16.toNat]

end Sys2Proof

namespace Sys2Proof.Machine

/-! ## Runs -/

/-- `t` is reached from `s` by `n` completed steps. -/
inductive Reaches : State → Nat → State → Prop where
  | here (s : State) : Reaches s 0 s
  | there {s t u : State} {n : Nat} : step s = .next t → Reaches t n u → Reaches s (n + 1) u

/-- The run has ended at `END_PC`: final (R204). -/
def Finished (s : State) : Prop := s.fetch = none ∧ s.pc = s.launch.endPc

/-- Control has left the program: terminal, not final (R204). -/
def Stuck (s : State) : Prop := s.fetch = none ∧ s.pc ≠ s.launch.endPc

/-- A step from `s` ends in a failure: terminal, not final (R186, R189, R204). -/
def Fails (s : State) : Prop := ∃ f k, step s = .fault f ∧ f.kind = some k

/-! ## Premises on a launch -/

/-- No data access to the program's own words is valid: what R55 recommends (U13). -/
def programProtected (p : Launch) : Prop :=
  ∀ (a w : Word) (kind : AccessKind), (a.toNat, w) ∈ p.imem → p.addrOk a kind = false

/-! ## Values -/

/-- The integer is a signed 32-bit number (R9, R101). -/
def fits32 (n : Int) : Prop := -(2 ^ 31) ≤ n ∧ n < 2 ^ 31

/-- The set holds exactly the registers of the list, register 0 left out (R207). -/
def setIs (set : RegSet) (l : List RegNum) : Prop :=
  ∀ r : RegNum, inSet r set = true ↔ r ≠ 0 ∧ r ∈ l

/-! ## Frames -/

/-- Every register outside the list reads as before. -/
def regsKept (changed : List RegNum) (s t : State) : Prop :=
  ∀ r, r ∉ changed → t.readReg r = s.readReg r

/-- Every byte of memory reads as before. -/
def memKept (s t : State) : Prop :=
  ∀ a, t.mem.readByte a = s.mem.readByte a

/-- Every byte of memory outside the aligned word at `a` reads as before. -/
def memKeptOutside (a : Word) (s t : State) : Prop :=
  ∀ b : Nat, b < a.toNat ∨ a.toNat + 4 ≤ b → t.mem.readByte b = s.mem.readByte b

/-- No draw was taken and no line was written (R151, R152). -/
def quiet (s t : State) : Prop :=
  t.drawCount = s.drawCount ∧ t.emitted = s.emitted

/-- The parts of the state that no rule of an instruction names: the launch parameters and the hazard detector. -/
def backgroundKept (s t : State) : Prop :=
  t.launch = s.launch ∧ t.detector = s.detector

/-- As `onlyRegsAndPc`, but exactly the line `e` was written. -/
def onlyRegsPcAndLine (e : EmitEvent) (s t : State) : Prop :=
  t.pc = s.pc + 4 ∧ memKept s t ∧ backgroundKept s t ∧ t.drawCount = s.drawCount ∧ t.emitted = s.emitted ++ [e]

/-- Register `rd` was written with `v`, or nothing if it is register 0 (R22), and every other register reads as before. -/
def wroteReg (rd : RegNum) (v : Word) (s t : State) : Prop :=
  t.readReg rd = (if rd = 0 then 0 else v) ∧ regsKept [rd] s t

/-- The pc moved to the next instruction, memory, draws, lines, launch parameters and detector are as before. -/
def onlyRegsAndPc (s t : State) : Prop :=
  t.pc = s.pc + 4 ∧ memKept s t ∧ quiet s t ∧ backgroundKept s t

/-- As `onlyRegsAndPc`, but one line may have been written: exactly when `writes`, for mnemonic `m`, with a text that is
open (R152). -/
def onlyRegsPcAndOpenLine (writes : Bool) (m : Mnemonic) (s t : State) : Prop :=
  t.pc = s.pc + 4 ∧ memKept s t ∧ backgroundKept s t ∧
    (if writes then ∃ args, t.emitted = s.emitted ++ [.free m args s.emitted.length] else t.emitted = s.emitted)

/-- `s` and `s'` are the same machine but for the registers. -/
def sameButRegs (s s' : State) : Prop :=
  s'.pc = s.pc ∧ s'.mem = s.mem ∧ s'.launch = s.launch ∧ s'.drawCount = s.drawCount ∧ s'.emitted = s.emitted ∧
    s'.detector = s.detector

/-- `s` and `s'` are the same machine but for the hazard detector. -/
def sameButDetector (s s' : State) : Prop :=
  s' = { s with detector := s'.detector }

/-- `s` and `s'` are the same machine but for the byte order in which their memories hold the same words (R42). -/
def sameWords (s s' : State) : Prop :=
  s'.regs = s.regs ∧ s'.pc = s.pc ∧ s'.detector = s.detector ∧ s'.drawCount = s.drawCount ∧
    s'.emitted = s.emitted ∧ s'.launch = { s.launch with byteOrder := s'.launch.byteOrder } ∧
    ∀ a : Word, aligned a = true →
      s'.mem.readWord s'.launch.byteOrder a.toNat = s.mem.readWord s.launch.byteOrder a.toNat

/-- `f` and `f'` are the same fault but for the hazard detector. -/
def sameFaultButDetector (f f' : Fault) : Prop :=
  ∃ d, f' = f.withDetector d

/-- Two outcomes of one kind: next states in the relation `rel`, or faults in the relation `frel`, or the same refusal. -/
def outcomesRelated (rel : State → State → Prop) (frel : Fault → Fault → Prop) :
    Host.Outcome State Fault Refusal → Host.Outcome State Fault Refusal → Prop
  | .next t, .next t' => rel t t'
  | .fault f, .fault f' => frel f f'
  | .refused r, .refused r' => r = r'
  | .next _, .fault _ | .next _, .refused _ | .fault _, .next _ | .fault _, .refused _ | .refused _, .next _
  | .refused _, .fault _ => False

/-! ## What an outcome shows -/

/-- The hazard detector a fault leaves; none where there was no step. -/
def Fault.detector : Fault → Option Detector
  | .arithmeticOverflow site | .addressError site _ _ | .illegalInstruction site _ => some site.detector
  | .stuck _ | .finished _ => none

/-- The hazard detector at the end of a step, whatever its outcome (R208, R209). -/
def detectorOf : Host.Outcome State Fault Refusal → Option Detector
  | .next t => some t.detector
  | .fault f => f.detector
  | .refused _ => none

/-! ## The invariant -/

/-- What every reachable state satisfies: the pc is a multiple of 4 (R27), memory is canonical, slot 0 of the register
file holds the zero that register 0 reads as (R22), and register 0 is not in the hazard latch (R208). -/
structure Invariant (s : State) : Prop where
  pcAligned : s.pc.toNat % 4 = 0
  memCanonical : s.mem.wf = true
  zeroSlot : s.regs[0] = 0
  latchZeroClear : s.detector.prevWs.getLsbD 0 = false

end Sys2Proof.Machine
end

