-- ==== Sys2Proof/Certificates/Slice0/Obligations.lean ====
section
/-! DEFINITION. The statements for the provers. Each docstring names the rule of spec/ it formalises. -/

open Sys2Proof Sys2Proof.Machine

/-! ## The decoder -/

/-- Spec section 30_encoding.md 8 (packing): decoding the packed word gives the instruction back, whatever the catalog
order, for every instruction the order makes reachable; the default order reads the shadowed `and` as mul. -/
def Obligations.DecodeOfEncodeIsTheInstruction : Prop :=
  (∀ order : List Mnemonic, catalogOrderOk order = true → ∀ i : Instr, i.wellFormed order = true →
    decode order (encode i) = .legal i) ∧
  (∀ (rd rs rt : RegNum) (shamt : BitVec 5),
    decode defaultCatalogOrder (encode (.and rd rs rt shamt)) = .legal (.mul rd rs rt shamt))

/-- Spec sections 30_encoding.md 2 to 8: every legal word is the packed word of the instruction it decodes to, so no bit
of an encoding is dropped. -/
def Obligations.EncodeOfDecodeIsTheWord : Prop :=
  ∀ (order : List Mnemonic) (w : Word) (i : Instr), decode order w = .legal i → encode i = w

/-- R77: the opcode map and the funct map say which words select a descriptor, and which one. -/
def Obligations.OpcodeAndFunctMapsSelectTheRow : Prop :=
  (∀ order : List Mnemonic, catalogOrderOk order = true → ∀ w : Word,
    (w.toNat / 2 ^ 26 ≠ 0 → ∀ m, dispatch order w = some m ↔ (w.toNat / 2 ^ 26, m) ∈ opcodeMap) ∧
    (w.toNat / 2 ^ 26 = 0 → w.toNat % 64 ≠ 0b100100 →
      ∀ m, dispatch order w = some m ↔ (w.toNat % 64, m) ∈ functMap) ∧
    (w.toNat / 2 ^ 26 = 0 → w.toNat % 64 = 0b100100 →
      dispatch order w = some .mul ∨ dispatch order w = some .and)) ∧
  (∀ w : Word, w.toNat / 2 ^ 26 = 0 → w.toNat % 64 = 0b100100 →
    dispatch defaultCatalogOrder w = some .mul) ∧
  opcodeMap.length + 1 = 18 ∧ functMap.length + 1 = 5

/-- R72: the Dispatcher returns the first descriptor in registration order that matches, none if no descriptor matches;
apart from mul and `and` the match sets are pairwise disjoint, so the order matters for that pair only. -/
def Obligations.FirstRegisteredMatchWins : Prop :=
  (∀ (order : List Mnemonic) (w : Word) (m : Mnemonic),
    dispatch order w = some m ↔
      ∃ before after, order = before ++ m :: after ∧ w &&& m.mask = m.pattern ∧
        ∀ n ∈ before, w &&& n.mask ≠ n.pattern) ∧
  (∀ (order : List Mnemonic) (w : Word),
    dispatch order w = none ↔ ∀ m ∈ order, w &&& m.mask ≠ m.pattern) ∧
  (∀ (m n : Mnemonic) (w : Word), w &&& m.mask = m.pattern → w &&& n.mask = n.pattern →
    m = n ∨ (m = .mul ∧ n = .and) ∨ (m = .and ∧ n = .mul)) ∧
  (∀ order order' : List Mnemonic, catalogOrderOk order = true → catalogOrderOk order' = true → ∀ w : Word,
    w &&& Mnemonic.mul.mask ≠ Mnemonic.mul.pattern → dispatch order w = dispatch order' w)

/-- R74, and R72 with R73 for every other order: of mul and `and` exactly the one registered first can be reached. Under
the default order, and under every order with mul first, no word dispatches to `and` and every collision word to mul; with
`and` first the roles swap; no catalog order makes both reachable. -/
def Obligations.CollisionReachesOneRowOnly : Prop :=
  (∀ w : Word, dispatch defaultCatalogOrder w ≠ some .and) ∧
  (∀ order : List Mnemonic, catalogOrderOk order = true →
    (order.idxOf Mnemonic.and < order.idxOf Mnemonic.mul →
      (∀ w : Word, dispatch order w ≠ some .mul) ∧
      ∀ w : Word, w &&& 0xFC00003F = 0x00000024 → dispatch order w = some .and) ∧
    (order.idxOf Mnemonic.mul < order.idxOf Mnemonic.and →
      (∀ w : Word, dispatch order w ≠ some .and) ∧
      ∀ w : Word, w &&& 0xFC00003F = 0x00000024 → dispatch order w = some .mul) ∧
    ¬ ((∃ w : Word, dispatch order w = some .mul) ∧ ∃ w : Word, dispatch order w = some .and))

/-- R64, R65, R66, R75: the OperandVector of each format, as numbers read off the word by the positions of R62, and the
decoder's outputs: `illegal` when the Dispatcher returns none, else the record with the idx and format of the matched row,
all fields, and the OperandVector of that format, which are the operands of the decoded instruction. -/
def Obligations.OperandVectorsReadTheFields : Prop :=
  (∀ w : Word,
    operandVector .r (fieldsOf w) = [w.toNat / 2 ^ 11 % 32, w.toNat / 2 ^ 21 % 32, w.toNat / 2 ^ 16 % 32] ∧
    operandVector .j (fieldsOf w) = [w.toNat % 2 ^ 26] ∧
    operandVector .i (fieldsOf w) = [w.toNat / 2 ^ 16 % 32, w.toNat / 2 ^ 21 % 32, w.toNat % 2 ^ 16] ∧
    operandVector .iBranch (fieldsOf w) = [w.toNat / 2 ^ 21 % 32, w.toNat / 2 ^ 16 % 32, w.toNat % 2 ^ 16] ∧
    (fieldsOf w).opcode.toNat = w.toNat / 2 ^ 26 ∧ (fieldsOf w).funct.toNat = w.toNat % 64 ∧
    (fieldsOf w).shamt.toNat = w.toNat / 2 ^ 6 % 32 ∧ (fieldsOf w).rs.val = w.toNat / 2 ^ 21 % 32 ∧
    (fieldsOf w).rt.val = w.toNat / 2 ^ 16 % 32 ∧ (fieldsOf w).rd.val = w.toNat / 2 ^ 11 % 32 ∧
    (fieldsOf w).imm16.toNat = w.toNat % 2 ^ 16 ∧ (fieldsOf w).target26.toNat = w.toNat % 2 ^ 26) ∧
  (∀ (order : List Mnemonic) (w : Word),
    (dispatch order w = none → decodeRecord order w = none ∧ decode order w = .illegal w) ∧
    (∀ m : Mnemonic, dispatch order w = some m →
      ∃ (d : DecodeRecord) (i : Instr), decodeRecord order w = some d ∧ decode order w = .legal i ∧
        d.idx.toNat = Mnemonic.all.idxOf m ∧ d.mnemonic = m ∧ d.format = formatOf m ∧ d.fields = fieldsOf w ∧
        d.ops = operandVector (formatOf m) (fieldsOf w) ∧ i.mnemonic = m ∧ i.operands = d.ops))

/-- R79: don't-care bits affect neither the match nor the result nor any failure: matching looks at the opcode, and at
the funct only where the opcode is 0; the six format-R instructions ignore `shamt`, the default roles leave unused what
the rule lists, and under any roles an instruction executes as a canonical one of its row does. -/
def Obligations.DontCareBitsAreIgnored : Prop :=
  (∀ (order : List Mnemonic) (w w' : Word), w &&& 0xFC000000 = w' &&& 0xFC000000 →
    (w &&& 0xFC000000 = 0 → w &&& 0x0000003F = w' &&& 0x0000003F) →
    dispatch order w = dispatch order w') ∧
  (∀ (s : State) (rd rs rt : RegNum) (shamt : BitVec 5),
    exec (.add rd rs rt shamt) s = exec (.add rd rs rt 0) s ∧ exec (.sub rd rs rt shamt) s = exec (.sub rd rs rt 0) s ∧
    exec (.mul rd rs rt shamt) s = exec (.mul rd rs rt 0) s ∧ exec (.and rd rs rt shamt) s = exec (.and rd rs rt 0) s ∧
    exec (.or rd rs rt shamt) s = exec (.or rd rs rt 0) s ∧ exec (.slt rd rs rt shamt) s = exec (.slt rd rs rt 0) s) ∧
  (∀ (s : State) (op0 op1 : RegNum) (imm16 : BitVec 16), s.launch.roles = defaultRoles →
    exec (.ordeal op0 op1 imm16) s = exec (.ordeal 0 0 imm16) s ∧
    exec (.ego op0 op1 imm16) s = exec (.ego op0 0 imm16) s ∧
    exec (.panic op0 op1 imm16) s = exec (.panic op0 0 0) s ∧
    exec (.meltdown op0 op1 imm16) s = exec (.meltdown 0 0 0) s) ∧
  (∀ (roles : Roles) (i : Instr), ∃ i' : Instr, i'.canonical roles = true ∧ i'.mnemonic = i.mnemonic ∧
    ∀ s : State, s.launch.roles = roles → exec i s = exec i' s)

/-- Words written out from the encodings of R70 and 95_test_vectors.md section 2.1. -/
def Obligations.SpecWordsDecodeAsListed : Prop :=
  decode defaultCatalogOrder 0x014B4820 = .legal (.add 9 10 11 0) ∧
  decode defaultCatalogOrder 0x014B4824 = .legal (.mul 9 10 11 0) ∧
  decode defaultCatalogOrder 0x08100008 = .legal (.j 0x0100008) ∧
  decode defaultCatalogOrder 0x152AFFFE = .legal (.bne 9 10 0xFFFE) ∧
  decode defaultCatalogOrder 0x8D49FF9C = .legal (.lw 9 10 0xFF9C) ∧
  decode defaultCatalogOrder 0x5D2A0002 = .legal (.ego 9 10 2) ∧
  decode defaultCatalogOrder 0x552A0002 = .legal (.suppress 10 9 2) ∧
  decode defaultCatalogOrder 0x00000000 = .illegal 0x00000000

/-! ## The step -/

/-- Section 41_control.md 1: when the word at the pc decodes to an instruction, the step is `exec` of it, with the hazard
detector driven on a next state and on a fault; a word that matches nothing is an IllegalInstruction, with the detector
driven too. -/
def Obligations.StepRunsTheDecodedInstruction : Prop :=
  ∀ (s : State) (w : Word), s.fetch = some w →
    (∀ i : Instr, decode s.launch.catalogOrder w = .legal i →
      (∀ t, exec i s = .next t →
        step s = .next { t with detector := s.detector.observe s.launch.roles (fieldsOf w) (.legal i) }) ∧
      (∀ f, exec i s = .fault f →
        step s = .fault (f.withDetector (s.detector.observe s.launch.roles (fieldsOf w) (.legal i))))) ∧
    (∀ v, decode s.launch.catalogOrder w = .illegal v →
      v = w ∧ step s = .fault (.illegalInstruction
        { pc := s.pc, word := some w, detector := s.detector.observe s.launch.roles (fieldsOf w) (.illegal w) } w))

/-- Log 10: a word placed by `withFetchWord` is the one the next step decodes, and nothing else of the state moves. -/
def Obligations.PlacedWordIsDecodedNext : Prop :=
  ∀ (s : State) (i : Instr), catalogOrderOk s.launch.catalogOrder = true →
    i.wellFormed s.launch.catalogOrder = true →
    (s.withFetchWord 32 (encode i).toNat).fetch = some (encode i) ∧
    decode (s.withFetchWord 32 (encode i).toNat).launch.catalogOrder (encode i) = .legal i ∧
    (∀ a : Nat, a ≠ s.pc.toNat →
      imemAt (s.withFetchWord 32 (encode i).toNat).launch.imem a = imemAt s.launch.imem a) ∧
    s.withFetchWord 32 (encode i).toNat =
      { s with launch := { s.launch with imem := (s.withFetchWord 32 (encode i).toNat).launch.imem } }

/-- R180, R183, R186, R204: every step has exactly one of the listed outcomes; a fault's report names the pc and the word,
and the word is one of an instruction that R180 lists for the fault. That the two ways to have no step, finished and
stuck, are reported as faults of the interface is the model's choice (log 11). -/
def Obligations.StepHasOneOfTheListedOutcomes : Prop :=
  ∀ s : State,
    (∀ r, step s ≠ .refused r) ∧
    (∀ f, step s = .fault f →
      (Finished s ∧ f = .finished s.pc) ∨
      (Stuck s ∧ f = .stuck s.pc) ∨
      ∃ w d, s.fetch = some w ∧
        ((f = .illegalInstruction { pc := s.pc, word := some w, detector := d } w ∧
            ∀ m ∈ s.launch.catalogOrder, w &&& m.mask ≠ m.pattern) ∨
          ∃ i, decode s.launch.catalogOrder w = .legal i ∧
            ((i.mnemonic ∈ [Mnemonic.add, .sub, .addi] ∧
                f = .arithmeticOverflow { pc := s.pc, word := some w, detector := d }) ∨
              (i.mnemonic = .lw ∧ ∃ a, f = .addressError { pc := s.pc, word := some w, detector := d } a .load) ∨
              (i.mnemonic = .sw ∧ ∃ a, f = .addressError { pc := s.pc, word := some w, detector := d } a .store)))) ∧
    ((∃ t, step s = .next t) → ¬ Fails s ∧ ¬ Finished s ∧ ¬ Stuck s) ∧
    ((∃ t, step s = .next t) ∨ Fails s ∨ Finished s ∨ Stuck s) ∧
    (Fails s → ¬ Finished s ∧ ¬ Stuck s) ∧ ¬ (Finished s ∧ Stuck s)

/-- R204: a run is finished exactly at `END_PC`, and stuck exactly at any other pc outside the program, for every program
that ends below 2^32 (the model's choice for the others: log 26). -/
def Obligations.RunEndsAtEndPcOrIsStuckOutside : Prop :=
  ∀ s : State, s.launch.resetPc.toNat % 4 = 0 → programOk s.launch.resetPc s.launch.imem = true →
    s.launch.endPc.toNat = s.launch.resetPc.toNat + 4 * s.launch.imem.length ∧
    (s.pc = s.launch.endPc → step s = .fault (.finished s.pc)) ∧
    (s.pc ≠ s.launch.endPc →
      ¬ (s.launch.resetPc.toNat ≤ s.pc.toNat ∧ s.pc.toNat < s.launch.endPc.toNat ∧ s.pc.toNat % 4 = 0) →
      step s = .fault (.stuck s.pc)) ∧
    (s.launch.resetPc.toNat ≤ s.pc.toNat → s.pc.toNat < s.launch.endPc.toNat → s.pc.toNat % 4 = 0 →
      ∃ w, s.fetch = some w ∧ (s.pc.toNat, w) ∈ s.launch.imem)

/-! ## Base arithmetic and logic -/

/-- R101, R102: the sign tests are signed overflow of the exact sum and difference. -/
def Obligations.OverflowMeansOutOfSignedRange : Prop :=
  ∀ a b : Word,
    (addOvf a b = true ↔ a.msb = b.msb ∧ (a + b).msb ≠ a.msb) ∧
    (addOvf a b = true ↔ ¬ fits32 (a.toInt + b.toInt)) ∧
    (subOvf a b = true ↔ a.msb ≠ b.msb ∧ (a - b).msb ≠ a.msb) ∧
    (subOvf a b = true ↔ ¬ fits32 (a.toInt - b.toInt)) ∧
    (subOvf a 0x80000000 = true ↔ 0 ≤ a.toInt)

/-- R103: add writes the exact sum, or raises ArithmeticOverflow when it is no signed 32-bit number. -/
def Obligations.AddWritesTheSumOrOverflows : Prop :=
  ∀ (s : State) (rd rs rt : RegNum) (shamt : BitVec 5),
    (fits32 ((s.readReg rs).toInt + (s.readReg rt).toInt) →
      ∃ t, exec (.add rd rs rt shamt) s = .next t ∧
        wroteReg rd (BitVec.ofInt 32 ((s.readReg rs).toInt + (s.readReg rt).toInt)) s t ∧ onlyRegsAndPc s t) ∧
    (¬ fits32 ((s.readReg rs).toInt + (s.readReg rt).toInt) →
      exec (.add rd rs rt shamt) s = .fault
        (.arithmeticOverflow { pc := s.pc, word := s.fetch, detector := s.detector }))

/-- R104: sub writes the exact difference `x[rs] - x[rt]`, or raises ArithmeticOverflow. -/
def Obligations.SubWritesTheDifferenceOrOverflows : Prop :=
  ∀ (s : State) (rd rs rt : RegNum) (shamt : BitVec 5),
    (fits32 ((s.readReg rs).toInt - (s.readReg rt).toInt) →
      ∃ t, exec (.sub rd rs rt shamt) s = .next t ∧
        wroteReg rd (BitVec.ofInt 32 ((s.readReg rs).toInt - (s.readReg rt).toInt)) s t ∧ onlyRegsAndPc s t) ∧
    (¬ fits32 ((s.readReg rs).toInt - (s.readReg rt).toInt) →
      exec (.sub rd rs rt shamt) s = .fault
        (.arithmeticOverflow { pc := s.pc, word := s.fetch, detector := s.detector }))

/-- R109: addi writes the exact sum of `x[rs]` and the sign-extended immediate, or raises ArithmeticOverflow. -/
def Obligations.AddiWritesTheSumOrOverflows : Prop :=
  ∀ (s : State) (rt rs : RegNum) (imm16 : BitVec 16),
    (fits32 ((s.readReg rs).toInt + imm16.toInt) →
      ∃ t, exec (.addi rt rs imm16) s = .next t ∧
        wroteReg rt (BitVec.ofInt 32 ((s.readReg rs).toInt + imm16.toInt)) s t ∧ onlyRegsAndPc s t) ∧
    (¬ fits32 ((s.readReg rs).toInt + imm16.toInt) →
      exec (.addi rt rs imm16) s = .fault (.arithmeticOverflow { pc := s.pc, word := s.fetch, detector := s.detector }))

/-- R105: mul writes the low 32 bits of the exact product, the same for signed and unsigned operands; it never fails. -/
def Obligations.MulWritesTheLowHalf : Prop :=
  ∀ (s : State) (rd rs rt : RegNum) (shamt : BitVec 5),
    ∃ t v, exec (.mul rd rs rt shamt) s = .next t ∧ wroteReg rd v s t ∧ onlyRegsAndPc s t ∧
      v = BitVec.ofInt 32 ((s.readReg rs).toInt * (s.readReg rt).toInt) ∧
      v = BitVec.ofNat 32 ((s.readReg rs).toNat * (s.readReg rt).toNat)

/-- R106, R107: `and` and `or` are bitwise on full words; they never fail. -/
def Obligations.AndAndOrAreBitwise : Prop :=
  ∀ (s : State) (rd rs rt : RegNum) (shamt : BitVec 5),
    (∃ t v, exec (.and rd rs rt shamt) s = .next t ∧ wroteReg rd v s t ∧ onlyRegsAndPc s t ∧
      ∀ k, v.getLsbD k = ((s.readReg rs).getLsbD k && (s.readReg rt).getLsbD k)) ∧
    (∃ t v, exec (.or rd rs rt shamt) s = .next t ∧ wroteReg rd v s t ∧ onlyRegsAndPc s t ∧
      ∀ k, v.getLsbD k = ((s.readReg rs).getLsbD k || (s.readReg rt).getLsbD k))

/-- R108: slt writes 1 when `x[rs]` is less than `x[rt]` as signed numbers, else 0; it never fails. -/
def Obligations.SltComparesSignedValues : Prop :=
  ∀ (s : State) (rd rs rt : RegNum) (shamt : BitVec 5),
    ∃ t, exec (.slt rd rs rt shamt) s = .next t ∧ onlyRegsAndPc s t ∧
      ((s.readReg rs).toInt < (s.readReg rt).toInt → wroteReg rd 1 s t) ∧
      ((s.readReg rt).toInt ≤ (s.readReg rs).toInt → wroteReg rd 0 s t)

/-- R22: register 0 reads as zero, a write to it changes nothing, and the writing instruction still performs every
check. -/
def Obligations.RegisterZeroReadsZeroAndDiscardsWrites : Prop :=
  (∀ s : State, s.readReg 0 = 0) ∧
  (∀ (s : State) (v : Word), s.writeReg 0 v = s) ∧
  (∀ (s : State) (rs rt : RegNum) (shamt : BitVec 5), ¬ fits32 ((s.readReg rs).toInt + (s.readReg rt).toInt) →
    exec (.add 0 rs rt shamt) s = .fault
      (.arithmeticOverflow { pc := s.pc, word := s.fetch, detector := s.detector })) ∧
  (∀ (s : State) (rs : RegNum) (imm16 : BitVec 16),
    (s.accessible (effectiveAddress (s.readReg rs) imm16) .load = true →
      exec (.lw 0 rs imm16) s = .next s.advance) ∧
    (s.accessible (effectiveAddress (s.readReg rs) imm16) .load = false →
      exec (.lw 0 rs imm16) s = .fault (.addressError { pc := s.pc, word := s.fetch, detector := s.detector }
        (effectiveAddress (s.readReg rs) imm16) .load)))

/-! ## Control transfer -/

/-- R122, R123: j and jal go to the field times 4 in the 256 MiB region of the following instruction; jal leaves the
address of the following instruction in register 31. -/
def Obligations.JumpsGoToTheRegionTarget : Prop :=
  ∀ (s : State) (target26 : BitVec 26),
    (∃ t, exec (.j target26) s = .next t ∧
      t.pc.toNat = (s.pc.toNat + 4) % 2 ^ 32 / 2 ^ 28 * 2 ^ 28 + 4 * target26.toNat ∧
      regsKept [] s t ∧ memKept s t ∧ quiet s t ∧ backgroundKept s t) ∧
    (∃ t, exec (.jal target26) s = .next t ∧
      t.pc.toNat = (s.pc.toNat + 4) % 2 ^ 32 / 2 ^ 28 * 2 ^ 28 + 4 * target26.toNat ∧
      wroteReg 31 (s.pc + 4) s t ∧ memKept s t ∧ quiet s t ∧ backgroundKept s t)

/-- R124, R125, R126: a taken branch goes to `pc + 4` plus four times the signed immediate, modulo 2^32. -/
def Obligations.BranchesCompareAndGoToTheTarget : Prop :=
  ∀ (s : State) (rs rt : RegNum) (imm16 : BitVec 16),
    (∃ t, exec (.beq rs rt imm16) s = .next t ∧
      t.pc = (if s.readReg rs = s.readReg rt then BitVec.ofInt 32 (s.pc.toNat + 4 + 4 * imm16.toInt)
        else s.pc + 4) ∧
      regsKept [] s t ∧ memKept s t ∧ quiet s t ∧ backgroundKept s t) ∧
    (∃ t, exec (.bne rs rt imm16) s = .next t ∧
      t.pc = (if s.readReg rs = s.readReg rt then s.pc + 4
        else BitVec.ofInt 32 (s.pc.toNat + 4 + 4 * imm16.toInt)) ∧
      regsKept [] s t ∧ memKept s t ∧ quiet s t ∧ backgroundKept s t)

/-- R121, R129: the pc unit gives the next pc of every instruction that did not fail: the region target for j and jal,
the branch target for a taken beq or bne, `pc + 4` for anything else; a multiple of 4 leads to a multiple of 4. -/
def Obligations.PcUnitGivesTheNextPc : Prop :=
  ∀ (i : Instr) (s t : State), exec i s = .next t →
    t.pc = nextPc i s ∧
    (∀ target26 : BitVec 26, i = .j target26 ∨ i = .jal target26 →
      t.pc = ((s.pc + 4) &&& 0xF0000000) ||| (target26.zeroExtend 32 <<< 2)) ∧
    (∀ (rs rt : RegNum) (imm16 : BitVec 16), i = .beq rs rt imm16 →
      t.pc = if s.readReg rs = s.readReg rt then s.pc + 4 + (imm16.signExtend 32 <<< 2) else s.pc + 4) ∧
    (∀ (rs rt : RegNum) (imm16 : BitVec 16), i = .bne rs rt imm16 →
      t.pc = if s.readReg rs ≠ s.readReg rt then s.pc + 4 + (imm16.signExtend 32 <<< 2) else s.pc + 4) ∧
    (i.mnemonic ∉ [Mnemonic.j, .jal, .beq, .bne] → t.pc = s.pc + 4) ∧
    (s.pc.toNat % 4 = 0 → t.pc.toNat % 4 = 0)

/-! ## Loads and stores -/

/-- R140, R141: lw reads the word at base plus sign-extended offset, or raises AddressError(EA, load). -/
def Obligations.LwLoadsTheWordOrRaisesAddressError : Prop :=
  ∀ (s : State) (rt rs : RegNum) (imm16 : BitVec 16),
    let ea : Word := effectiveAddress (s.readReg rs) imm16
    ea = BitVec.ofInt 32 ((s.readReg rs).toInt + imm16.toInt) ∧
    (ea.toNat % 4 = 0 → s.launch.addrOk ea .load = true →
      ∃ t, exec (.lw rt rs imm16) s = .next t ∧
        wroteReg rt (s.mem.readWord s.launch.byteOrder ea.toNat) s t ∧ onlyRegsAndPc s t) ∧
    (ea.toNat % 4 ≠ 0 ∨ s.launch.addrOk ea .load = false →
      exec (.lw rt rs imm16) s = .fault
        (.addressError { pc := s.pc, word := s.fetch, detector := s.detector } ea .load))

/-- R142: sw stores `x[rt]` at base plus sign-extended offset and changes no other byte, or raises
AddressError(EA, store). -/
def Obligations.SwStoresTheWordOrRaisesAddressError : Prop :=
  ∀ (s : State) (rt rs : RegNum) (imm16 : BitVec 16), s.mem.wf = true →
    let ea : Word := effectiveAddress (s.readReg rs) imm16
    (ea.toNat % 4 = 0 → s.launch.addrOk ea .store = true →
      ∃ t, exec (.sw rt rs imm16) s = .next t ∧
        t.mem.readWord t.launch.byteOrder ea.toNat = s.readReg rt ∧ memKeptOutside ea s t ∧
        regsKept [] s t ∧ t.pc = s.pc + 4 ∧ quiet s t ∧ backgroundKept s t) ∧
    (ea.toNat % 4 ≠ 0 ∨ s.launch.addrOk ea .store = false →
      exec (.sw rt rs imm16) s = .fault
        (.addressError { pc := s.pc, word := s.fetch, detector := s.detector } ea .store))

/-- R47, R48: MemRead returns the word last written; both primitives fail exactly when the address is misaligned or not
valid for the kind. -/
def Obligations.MemReadReturnsTheWordLastWritten : Prop :=
  (∀ (s t : State) (a v : Word), s.mem.wf = true → memWrite s a v = .ok t →
    ∀ b : Word, memRead t b =
      if b = a then (if s.launch.addrOk a .load = true then .ok v else .error { a := a, kind := .load })
      else memRead s b) ∧
  (∀ (s : State) (a : Word),
    memRead s a = .error { a := a, kind := .load } ↔ a.toNat % 4 ≠ 0 ∨ s.launch.addrOk a .load = false) ∧
  (∀ (s : State) (a v : Word),
    (memWrite s a v = .error { a := a, kind := .store } ↔ a.toNat % 4 ≠ 0 ∨ s.launch.addrOk a .store = false) ∧
    (∀ e, memWrite s a v = .error e → e = { a := a, kind := .store }))

/-- R41: only sw and meltdown change data memory, and only the four bytes of the word they store to. -/
def Obligations.OnlySwAndMeltdownChangeMemory : Prop :=
  ∀ (i : Instr) (s t : State), s.mem.wf = true → exec i s = .next t → ∀ b : Nat,
    t.mem.readByte b = s.mem.readByte b ∨
    (∃ rt rs imm16, i = .sw rt rs imm16 ∧
      (effectiveAddress (s.readReg rs) imm16).toNat ≤ b ∧
      b < (effectiveAddress (s.readReg rs) imm16).toNat + 4) ∨
    (∃ op0 op1 imm16, i = .meltdown op0 op1 imm16 ∧
      (counterAddress s).toNat ≤ b ∧ b < (counterAddress s).toNat + 4)

/-! ## The extended instructions -/

/-- R150: every table index is clamped into its range; the immediate is the index under the default roles, and out of
range it behaves as the top of the range. -/
def Obligations.IndicesAreClamped : Prop :=
  (∀ v lo hi : Int, lo ≤ hi → clamp v lo hi = min hi (max lo v)) ∧
  (∀ v : Int, ((tier v).val : Int) = min 4 (max 0 v) ∧ ((level v).val : Int) = min 3 (max 0 v)) ∧
  (∀ (s : State) (op0 op1 : RegNum) (imm16 : BitVec 16),
    s.index .imm op0 op1 imm16 = if s.launch.idxSigned then imm16.toInt else (imm16.toNat : Int)) ∧
  (∀ (s : State) (op0 op1 : RegNum) (imm16 : BitVec 16),
    s.launch.idxSigned = false → s.launch.roles = defaultRoles → 4 ≤ imm16.toNat →
    exec (.extract op0 op1 imm16) s = exec (.extract op0 op1 4) s ∧
    exec (.suppress op0 op1 imm16) s = exec (.suppress op0 op1 4) s ∧
    exec (.ego op0 op1 imm16) s = exec (.ego op0 op1 4) s ∧
    exec (.ordeal op0 op1 imm16) s = exec (.ordeal op0 op1 3) s)

/-- R155, D34: extract writes base + 1 + gain for some draw 0..9, whatever real number the multiplier stands for; the
gain is the floor of multiplier times (1 + draw) where that product is exactly representable, which the model's choice
(log 17) is to read as a finite binary32 number, `m × 2^j / 2^e` with `m` below 2^24, `j` up to 104 and `e` up to 149. It
never fails. -/
def Obligations.ExtractAddsTheFlooredGain : Prop :=
  ∀ (s : State) (op0 op1 : RegNum) (imm16 : BitVec 16),
    let mult := s.launch.favMult[tier (s.index s.launch.roles.extractIndex op0 op1 imm16)]
    ∃ (r : Fin 10) (g : Nat) (t : State), exec (.extract op0 op1 imm16) s = .next t ∧
      (∀ x : ℝ, mult.denotes x → isBinary32Real (x * (1 + r.val)) →
        (g : ℝ) ≤ x * (1 + r.val) ∧ x * (1 + r.val) < g + 1) ∧
      wroteReg (slotReg s.launch.roles.extractDest op0 op1)
        (s.readReg (slotReg s.launch.roles.extractBase op0 op1) + 1 + BitVec.ofNat 32 g) s t ∧
      t.drawCount = s.drawCount + 1 ∧ onlyRegsPcAndOpenLine s.launch.emits.extract .extract s t

/-- R156 to R159: each work instruction writes source plus sign-extended immediate, wrapping, emits one line naming
itself, its destination and the delta, and never fails. -/
def Obligations.WorkInstructionsAddAndEmitOneLine : Prop :=
  ∀ (s : State) (op0 op1 : RegNum) (imm16 : BitVec 16),
    let done := fun (m : Mnemonic) (role : WorkRole) (t : State) =>
      wroteReg (slotReg role.dest op0 op1)
        (BitVec.ofInt 32 ((s.readReg (slotReg role.src op0 op1)).toInt + imm16.toInt)) s t ∧
      onlyRegsPcAndLine (.stated m [BitVec.ofNat 32 (slotReg role.dest op0 op1).val, BitVec.ofInt 32 imm16.toInt]) s t
    (∃ t, exec (.winst op0 op1 imm16) s = .next t ∧ done .winst s.launch.roles.winst t) ∧
    (∃ t, exec (.winsight op0 op1 imm16) s = .next t ∧ done .winsight s.launch.roles.winsight t) ∧
    (∃ t, exec (.wattach op0 op1 imm16) s = .next t ∧ done .wattach s.launch.roles.wattach t) ∧
    (∃ t, exec (.wrepress op0 op1 imm16) s = .next t ∧ done .wrepress s.launch.roles.wrepress t)

/-- R160, D33: suppress writes 0 or 1 into register 2 whatever its operands; where abno power times the
multiplier, whatever real number that stands for, is an exact integer, the verdict is 1 exactly when agent power is strictly greater, and elsewhere it is a free value, which is
the model's choice (log 17). It never fails. -/
def Obligations.SuppressWritesTheVerdictIntoRegisterTwo : Prop :=
  ∀ (s : State) (op0 op1 : RegNum) (imm16 : BitVec 16),
    let mult := s.launch.punMult[tier (s.index s.launch.roles.suppressIndex op0 op1 imm16)]
    let agent := (s.readReg (slotReg s.launch.roles.suppressAgent op0 op1)).toInt
    let abno := (s.readReg (slotReg s.launch.roles.suppressAbno op0 op1)).toInt
    ∃ (t : State) (wins : Bool), exec (.suppress op0 op1 imm16) s = .next t ∧
      wroteReg 2 (if wins then 1 else 0) s t ∧
      (∀ (x : ℝ) (product : Int), mult.denotes x → abno * x = product → (wins = true ↔ agent > product)) ∧
      t.drawCount = s.drawCount ∧ onlyRegsPcAndOpenLine s.launch.emits.suppress .suppress s t

/-- R161: ordeal subtracts the severity of its clamped level, wrapping and with no floor, from one register of the band
8..15, and never fails. -/
def Obligations.OrdealSubtractsSeverityFromABandRegister : Prop :=
  ∀ (s : State) (op0 op1 : RegNum) (imm16 : BitVec 16),
    ∃ (t : State) (r : RegNum), exec (.ordeal op0 op1 imm16) s = .next t ∧
      8 ≤ r.val ∧ r.val ≤ 15 ∧
      wroteReg r (BitVec.ofInt 32 ((s.readReg r).toInt -
        s.launch.severity[level (s.index s.launch.roles.ordealIndex op0 op1 imm16)])) s t ∧
      t.drawCount = s.drawCount + 1 ∧ onlyRegsPcAndOpenLine s.launch.emits.ordeal .ordeal s t

/-- R162: ego adds the bonus of its clamped index, wrapping, to its destination, and never fails. -/
def Obligations.EgoAddsTheBonus : Prop :=
  ∀ (s : State) (op0 op1 : RegNum) (imm16 : BitVec 16),
    ∃ t : State, exec (.ego op0 op1 imm16) s = .next t ∧
      wroteReg (slotReg s.launch.roles.egoDest op0 op1)
        (BitVec.ofInt 32 ((s.readReg (slotReg s.launch.roles.egoDest op0 op1)).toInt +
          s.launch.bonus[tier (s.index s.launch.roles.egoIndex op0 op1 imm16)])) s t ∧
      t.drawCount = s.drawCount ∧ onlyRegsPcAndOpenLine s.launch.emits.ego .ego s t

/-- R163: panic zeroes its target register and emits one line, and never fails. -/
def Obligations.PanicZeroesItsTarget : Prop :=
  ∀ (s : State) (op0 op1 : RegNum) (imm16 : BitVec 16),
    ∃ t : State, exec (.panic op0 op1 imm16) s = .next t ∧
      wroteReg (slotReg s.launch.roles.panicTarget op0 op1) 0 s t ∧
      onlyRegsPcAndLine (.stated .panic [BitVec.ofNat 32 (slotReg s.launch.roles.panicTarget op0 op1).val]) s t

/-- R164, R191: meltdown always completes: every band register becomes max(0, old - 10) where that difference is a
32-bit number, no other register moves, and the counter word becomes min(ceiling, old + 1) when it can be read and
written, with a failing access swallowed. -/
def Obligations.MeltdownPenalisesTheBandAndCounts : Prop :=
  ∀ (s : State) (op0 op1 : RegNum) (imm16 : BitVec 16), s.mem.wf = true →
    let a : Word := s.readReg 28 + 4
    let c : Word := s.mem.readWord s.launch.byteOrder a.toNat
    ∃ t : State, exec (.meltdown op0 op1 imm16) s = .next t ∧
      (∀ r : RegNum, 8 ≤ r.val → r.val ≤ 15 → fits32 ((s.readReg r).toInt - 10) →
        t.readReg r = BitVec.ofInt 32 (max 0 ((s.readReg r).toInt - 10))) ∧
      (∀ r : RegNum, r.val < 8 ∨ 15 < r.val → t.readReg r = s.readReg r) ∧
      (a.toNat % 4 = 0 ∧ s.launch.addrOk a .load = true ∧ s.launch.addrOk a .store = true →
        memKeptOutside a s t ∧
        (fits32 (c.toInt + 1) → t.mem.readWord t.launch.byteOrder a.toNat =
          BitVec.ofInt 32 (min s.launch.counterCeiling.toInt (c.toInt + 1)))) ∧
      (¬ (a.toNat % 4 = 0 ∧ s.launch.addrOk a .load = true ∧ s.launch.addrOk a .store = true) → memKept s t) ∧
      t.pc = s.pc + 4 ∧ t.drawCount = s.drawCount ∧ backgroundKept s t ∧
      (if s.launch.emits.meltdown then ∃ args, t.emitted = s.emitted ++ [.free .meltdown args s.emitted.length]
        else t.emitted = s.emitted)

/-- Sections 43_extended.md 1 (Draw, Emit; D31, D32): only extract and ordeal draw, once each; the five instructions of
which the source says so write exactly one line, the other five at most one, the base instructions none, and lines
written before stay. -/
def Obligations.DrawsAndLinesAreCounted : Prop :=
  ∀ (i : Instr) (s t : State), exec i s = .next t →
    t.drawCount = s.drawCount + (if i.mnemonic ∈ [Mnemonic.extract, .ordeal] then 1 else 0) ∧
    ∃ lines, t.emitted = s.emitted ++ lines ∧ lines.length ≤ 1 ∧
      (i.mnemonic ∈ [Mnemonic.winst, .winsight, .wattach, .wrepress, .panic] → lines.length = 1) ∧
      (i.mnemonic ∉ [Mnemonic.extract, .winst, .winsight, .wattach, .wrepress, .suppress, .ordeal, .ego, .panic,
        .meltdown] → lines = [])

/-! ## Faults -/

/-- R185: which instruction can end in which fault; every other instruction of the catalog has none. -/
def Obligations.OnlyTheListedInstructionsFault : Prop :=
  (∀ (i : Instr) (s : State),
    (∀ r, exec i s ≠ .refused r) ∧
    (∀ f, exec i s = .fault f →
      (i.mnemonic ∈ [Mnemonic.add, .sub, .addi] ∧
        f = .arithmeticOverflow { pc := s.pc, word := s.fetch, detector := s.detector }) ∨
      (i.mnemonic = .lw ∧ ∃ a, f = .addressError { pc := s.pc, word := s.fetch, detector := s.detector } a .load) ∨
      (i.mnemonic = .sw ∧ ∃ a, f = .addressError { pc := s.pc, word := s.fetch, detector := s.detector } a .store))) ∧
  (∀ (s : State) (w : Word), s.fetch = some w → (∀ m ∈ s.launch.catalogOrder, w &&& m.mask ≠ m.pattern) →
    ∃ d, step s = .fault (.illegalInstruction { pc := s.pc, word := some w, detector := d } w))

/-! ## The hazard detector -/

/-- R207: the read and write sets of every row under the default roles, an illegal word's among them; register 0 is in
neither. -/
def Obligations.ReadAndWriteSetsAreTheTable : Prop :=
  ∀ (a b c : RegNum) (shamt : BitVec 5) (imm16 : BitVec 16) (target26 : BitVec 26),
    let reads := fun i l => setIs (readSet defaultRoles i) l
    let writes := fun i l => setIs (writeSet defaultRoles i) l
    let band : List RegNum := [8, 9, 10, 11, 12, 13, 14, 15]
    (∀ i ∈ [Instr.add a b c shamt, .sub a b c shamt, .mul a b c shamt, .and a b c shamt, .or a b c shamt,
      .slt a b c shamt], reads i [b, c] ∧ writes i [a]) ∧
    (∀ i ∈ [Instr.addi a b imm16, .lw a b imm16], reads i [b] ∧ writes i [a]) ∧
    (reads (.sw a b imm16) [a, b] ∧ writes (.sw a b imm16) []) ∧
    (∀ i ∈ [Instr.beq a b imm16, .bne a b imm16], reads i [a, b] ∧ writes i []) ∧
    (reads (.j target26) [] ∧ writes (.j target26) []) ∧
    (reads (.jal target26) [] ∧ writes (.jal target26) [31]) ∧
    (∀ i ∈ [Instr.extract a b imm16, .winst a b imm16, .winsight a b imm16, .wattach a b imm16,
      .wrepress a b imm16], reads i [b] ∧ writes i [a]) ∧
    (reads (.suppress a b imm16) [a, b] ∧ writes (.suppress a b imm16) [2]) ∧
    (reads (.ordeal a b imm16) band ∧ writes (.ordeal a b imm16) band) ∧
    (reads (.ego a b imm16) [a] ∧ writes (.ego a b imm16) [a]) ∧
    (reads (.panic a b imm16) [] ∧ writes (.panic a b imm16) [a]) ∧
    (reads (.meltdown a b imm16) (band ++ [28]) ∧ writes (.meltdown a b imm16) band) ∧
    (∀ (roles : Roles) (w : Word),
      setIs (verdictReadSet roles (.illegal w)) [] ∧ setIs (verdictWriteSet roles (.illegal w)) []) ∧
    (∀ (roles : Roles) (i : Instr),
      verdictReadSet roles (.legal i) = readSet roles i ∧ verdictWriteSet roles (.legal i) = writeSet roles i)

/-- R208, R209: every step of a word, completed or faulted, drives the detector. Afterwards the latch is the write set of
the decoded word; `hazard` says that some register other than 0 is both in the old latch and read; the two per-field
outputs say so of the `rs` and `rt` fields, for ordeal and meltdown only as far as a role reads that field (DEDUCED,
log 22); an illegal word leaves an empty latch and no hazard. -/
def Obligations.DetectorReportsReadAfterWrite : Prop :=
  ∀ (s : State) (w : Word), s.fetch = some w →
    ∃ d, detectorOf (step s) = some d ∧
      (∀ v, decode s.launch.catalogOrder w = .illegal v →
        (∀ r : RegNum, inSet r d.prevWs = false) ∧ d.hazard = false ∧ d.hazardRs = false ∧ d.hazardRt = false) ∧
      (∀ i, decode s.launch.catalogOrder w = .legal i →
        d.prevWs = writeSet s.launch.roles i ∧
        (d.hazard = true ↔
          ∃ r : RegNum, inSet r s.detector.prevWs = true ∧ inSet r (readSet s.launch.roles i) = true) ∧
        (i.mnemonic ∉ [Mnemonic.ordeal, .meltdown] →
          (d.hazardRs = true ↔ inSet (fieldsOf w).rs (readSet s.launch.roles i) = true ∧
            inSet (fieldsOf w).rs s.detector.prevWs = true) ∧
          (d.hazardRt = true ↔ inSet (fieldsOf w).rt (readSet s.launch.roles i) = true ∧
            inSet (fieldsOf w).rt s.detector.prevWs = true)) ∧
        (i.mnemonic = .meltdown ∨ (i.mnemonic = .ordeal ∧ s.launch.roles.ordealIndex = .imm) →
          d.hazardRs = false ∧ d.hazardRt = false) ∧
        (∀ op0 op1 imm16 slot, i = .ordeal op0 op1 imm16 → s.launch.roles.ordealIndex = .reg slot →
          (d.hazardRs = true ↔ (fieldsOf w).rs ≠ 0 ∧ (fieldsOf w).rs = slotReg slot op0 op1 ∧
            inSet (fieldsOf w).rs s.detector.prevWs = true) ∧
          (d.hazardRt = true ↔ (fieldsOf w).rt ≠ 0 ∧ (fieldsOf w).rt = slotReg slot op0 op1 ∧
            inSet (fieldsOf w).rt s.detector.prevWs = true)))

/-- R207 against the rules of the instructions: a register outside the write set of an instruction reads after it as it
did before, whatever the roles. -/
def Obligations.RegistersOutsideTheWriteSetAreKept : Prop :=
  ∀ (i : Instr) (s t : State), exec i s = .next t →
    ∀ r : RegNum, inSet r (writeSet s.launch.roles i) = false → t.readReg r = s.readReg r

/-- R207 against the rules of the instructions: two machines that differ only in registers outside the read set of an
instruction end in the same fault, or in next states that agree on everything but registers outside its write set. -/
def Obligations.InstructionsDependOnTheirReadSetOnly : Prop :=
  ∀ (i : Instr) (s s' : State), sameButRegs s s' →
    (∀ r : RegNum, inSet r (readSet s.launch.roles i) = true → s'.readReg r = s.readReg r) →
    outcomesRelated
      (fun t t' => sameButRegs t t' ∧
        ∀ r : RegNum, inSet r (writeSet s.launch.roles i) = true → t'.readReg r = t.readReg r)
      (· = ·) (exec i s) (exec i s')

/-- R210: the detector is an observer: two machines that differ only in it run alike, for any number of steps, to next
states or faults that differ only in it. -/
def Obligations.DetectorChangesNothingElse : Prop :=
  ∀ (n : Nat) (s s' : State), sameButDetector s s' →
    outcomesRelated sameButDetector sameFaultButDetector
      (Host.Core.run Sys2Proof.core n s) (Host.Core.run Sys2Proof.core n s')

/-! ## Whole-machine statements -/

/-- R42: byte order cannot be observed by any program: two machines whose memories hold the same words in different
byte orders run alike, for any number of steps. -/
def Obligations.ByteOrderIsUnobservable : Prop :=
  ∀ (n : Nat) (s s' : State), s.mem.wf = true → s'.mem.wf = true → sameWords s s' →
    outcomesRelated sameWords (· = ·)
      (Host.Core.run Sys2Proof.core n s) (Host.Core.run Sys2Proof.core n s')

/-- The invariant of the state (R22, R27, R208, log 7 and log 8): every completed step keeps it. -/
def Obligations.StepKeepsTheInvariant : Prop :=
  ∀ s t : State, Invariant s → step s = .next t → Invariant t

/-- The invariant holds at reset, and at every boot from an aligned `RESET_PC` and a canonical memory. -/
def Obligations.ResetMeetsTheInvariant : Prop :=
  Invariant State.reset ∧
  ∀ (p : Launch) (mem : Memory), p.resetPc.toNat % 4 = 0 → mem.wf = true → Invariant (State.boot p mem)

/-- R200: reset, for any launch parameters: pc, a multiple of 4 in a well-formed launch, registers, an empty latch, and
memory as the host left it. -/
def Obligations.ResetPutsTheLaunchValues : Prop :=
  ∀ (p : Launch) (mem : Memory),
    (State.boot p mem).pc = p.resetPc ∧
    (p.wellFormed = true → (State.boot p mem).pc.toNat % 4 = 0) ∧
    (State.boot p mem).readReg 0 = 0 ∧
    (∀ r : RegNum, r ≠ 0 → (State.boot p mem).readReg r = p.resetReg[r]) ∧
    (∀ a, (State.boot p mem).mem.readByte a = mem.readByte a) ∧
    (∀ r : RegNum, inSet r (State.boot p mem).detector.prevWs = false) ∧
    (State.boot p mem).launch = p

/-- R55 and R71: no run changes `IMem` or the catalog order; self-modifying code is not possible. That the other launch
parameters of R7 stand beside them in State and do not change either is the model's choice (log 1). -/
def Obligations.LaunchParametersNeverChange : Prop :=
  ∀ (s t : State) (n : Nat), Reaches s n t → t.launch = s.launch

/-- R44, R48, R55: along every run a byte of a word that is not valid for stores keeps its value; so where the program's
own addresses are not valid, as R55 recommends, nothing is ever written there. -/
def Obligations.InvalidWordsAreNeverWritten : Prop :=
  ∀ (s t : State) (n : Nat), s.mem.wf = true → Reaches s n t →
    (∀ a : Word, a.toNat % 4 = 0 → s.launch.addrOk a .store = false →
      ∀ k, k < 4 → t.mem.readByte (a.toNat + k) = s.mem.readByte (a.toNat + k)) ∧
    (programProtected s.launch → ∀ a w : Word, a.toNat % 4 = 0 → (a.toNat, w) ∈ s.launch.imem →
      t.mem.readWord t.launch.byteOrder a.toNat = s.mem.readWord s.launch.byteOrder a.toNat)
end

