-- ==== Sys2Proof/Laws/Extended.lean ====
section
/-! SUPPORT. What the functions over the tables of the extended instructions can do, in terms of the real numbers the
multipliers stand for. -/

namespace Sys2Proof

/-! ## Multipliers and real numbers -/

/-- Every non-negative real number is an entry a table may hold (R7, D29). -/
theorem exists_denotes (x : ℝ) (hx : 0 ≤ x) : ∃ mult : Multiplier, mult.ok = true ∧ mult.denotes x := by
  by_cases h : Irrational x
  · exact ⟨.irrational 0, rfl, hx, h⟩
  · obtain ⟨q, rfl⟩ : ∃ q : ℚ, (q : ℝ) = x := by simpa [Irrational] using h
    have hq : ((q.num.toNat : ℤ) : ℝ) = q.num :=
      congrArg _ (Int.toNat_of_nonneg (Rat.num_nonneg.2 (by exact_mod_cast hx)))
    refine ⟨.rational q.num.toNat q.den, by simp [Multiplier.ok, q.den_nz], q.den_nz, ?_⟩
    rw [Rat.cast_def, ← hq, Int.cast_natCast]

/-- Every entry that is a number stands for one, and no entry for a negative one (R7). -/
theorem denotes_nonneg {mult : Multiplier} {x : ℝ} (h : mult.denotes x) : 0 ≤ x := by
  cases mult with
  | rational num den => exact h.2 ▸ by positivity
  | irrational name => exact h.1

theorem ok_iff_denotes (mult : Multiplier) : mult.ok = true ↔ ∃ x, mult.denotes x := by
  cases mult with
  | rational num den => simp [Multiplier.ok, Multiplier.denotes]
  | irrational name => exact ⟨fun _ => ⟨√2, Real.sqrt_nonneg 2, irrational_sqrt_two⟩, fun _ => rfl⟩

/-! ## extract -/

/-- The computed check is membership in the finite binary32 numbers (log 17). -/
theorem isBinary32_iff (a b : Nat) :
    isBinary32 a b = true ↔ b ≠ 0 ∧
      ∃ m j e : Nat, m < 2 ^ 24 ∧ j ≤ 104 ∧ e ≤ 149 ∧ a * 2 ^ e = m * 2 ^ j * b := by
  simp only [isBinary32, Bool.and_eq_true, bne_iff_ne, decide_eq_true_eq, and_assoc, ← Nat.dvd_iff_mod_eq_zero,
    ne_eq, and_congr_right_iff]
  intro hb
  obtain ⟨g, num, den, hg, hcop, hN, hD⟩ := Nat.exists_coprime' (m := a) (n := b)
    (Nat.gcd_pos_of_pos_right _ (Nat.pos_of_ne_zero hb))
  have hgcd : Nat.gcd a b = g := by rw [hN, hD, Nat.gcd_mul_right, hcop.gcd_eq_one, Nat.one_mul]
  rw [hgcd, hN, hD, Nat.mul_div_cancel _ hg, Nat.mul_div_cancel _ hg]
  have lowest : ∀ m j e : Nat, num * g * 2 ^ e = m * 2 ^ j * (den * g) ↔ num * 2 ^ e = m * 2 ^ j * den := fun m j e => by
    rw [Nat.mul_right_comm, ← Nat.mul_assoc, Nat.mul_left_inj hg.ne']
  simp only [lowest]
  constructor
  · rintro ⟨hden, hnum⟩
    obtain ⟨e, he, rfl⟩ := (Nat.dvd_prime_pow Nat.prime_two).1 hden
    obtain ⟨j, hj, hgj⟩ := (Nat.dvd_prime_pow Nat.prime_two).1 (Nat.gcd_dvd_right num (2 ^ 104))
    exact ⟨num / 2 ^ j, j, e, hgj ▸ hnum, hj, he, by rw [Nat.div_mul_cancel (hgj ▸ Nat.gcd_dvd_left ..)]⟩
  · rintro ⟨m, j, e, hm, hj, he, h⟩
    have hden : den ∣ 2 ^ e := hcop.symm.dvd_of_dvd_mul_left (h ▸ Nat.dvd_mul_left ..)
    refine ⟨hden.trans (pow_dvd_pow 2 he), ?_⟩
    obtain ⟨f, -, rfl⟩ := (Nat.dvd_prime_pow Nat.prime_two).1 hden
    -- `num` is `m` times a power of two that binary32 can carry, or `m` over one
    have hcases : (∃ i ≤ 104, num = m * 2 ^ i) ∨ num ≤ m := by
      have hfe : f ≤ e := (Nat.pow_dvd_pow_iff_le_right (by decide)).1 hden
      rcases Nat.le_total (e - f) j with hij | hij
      · refine .inl ⟨j - (e - f), by omega, Nat.eq_of_mul_eq_mul_right (Nat.two_pow_pos e) ?_⟩
        rw [h, Nat.mul_assoc, Nat.mul_assoc, ← pow_add, ← pow_add]; congr 2; omega
      · refine .inr (Nat.le_of_mul_le_mul_right (c := 2 ^ e) ?_ (Nat.two_pow_pos e))
        rw [h, Nat.mul_assoc, ← pow_add]
        exact Nat.mul_le_mul_left m (Nat.pow_le_pow_right (by decide) (by omega))
    rcases hcases with ⟨i, hi, rfl⟩ | hle
    · refine Nat.lt_of_le_of_lt ?_ hm
      have hdvd : 2 ^ i ∣ Nat.gcd (m * 2 ^ i) (2 ^ 104) := Nat.dvd_gcd (Nat.dvd_mul_left ..) (pow_dvd_pow 2 hi)
      exact Nat.div_le_of_le_mul ((Nat.mul_comm m _).trans_le (Nat.mul_le_mul_right m
        (Nat.le_of_dvd (Nat.gcd_pos_of_pos_right _ (by decide)) hdvd)))
    · exact Nat.lt_of_le_of_lt ((Nat.div_le_self ..).trans hle) hm

theorem isBinary32_iff_real {a b : Nat} (hb : b ≠ 0) : isBinary32 a b = true ↔ isBinary32Real (a / b) := by
  have hb' : (b : ℝ) ≠ 0 := Nat.cast_ne_zero.2 hb
  have cast : ∀ m j e : Nat, a * 2 ^ e = m * 2 ^ j * b ↔ (a / b : ℝ) * 2 ^ e = m * 2 ^ j := fun m j e => by
    rw [div_mul_eq_mul_div, div_eq_iff hb']; exact_mod_cast Iff.rfl
  simp only [isBinary32_iff, isBinary32Real, cast, ne_eq, hb, not_false_eq_true, true_and]

theorem not_isBinary32Real_of_irrational {x : ℝ} (h : Irrational x) : ¬ isBinary32Real x := by
  rintro ⟨m, j, e, -, -, -, hx⟩
  exact h ⟨(m * 2 ^ j / 2 ^ e : ℚ), by push_cast; rw [← hx]; field_simp⟩

/-- Everything `exactFloor` can do: it answers exactly where the product is a finite binary32 number, and then with its
floor (R155, D34). -/
theorem exactFloor_eq_some_iff {mult : Multiplier} {x : ℝ} (h : mult.denotes x) (n g : Nat) :
    mult.exactFloor n = some g ↔ isBinary32Real (x * n) ∧ (g : ℝ) ≤ x * n ∧ x * n < g + 1 := by
  rw [← Nat.floor_eq_iff (mul_nonneg (denotes_nonneg h) n.cast_nonneg)]
  cases mult with
  | rational num den =>
    obtain ⟨hd, rfl⟩ := h
    have hx : (num / den * n : ℝ) = (num * n : Nat) / (den : Nat) := by push_cast; ring
    rw [hx, ← isBinary32_iff_real hd, Nat.floor_div_eq_div]
    simp [Multiplier.exactFloor]
  | irrational name =>
    rcases Nat.eq_zero_or_pos n with rfl | hn
    · have h0 : isBinary32Real 0 := ⟨0, 0, 0, by decide, by decide, by decide, by simp⟩
      simp [Multiplier.exactFloor, h0]
    · simp [Multiplier.exactFloor, hn.ne', not_isBinary32Real_of_irrational (h.2.mul_natCast hn.ne')]

/-- What `ExtractGain` is bound to (R155, D34). -/
theorem extractGain_floor {p : Launch} {k : Fin 5} {x : ℝ} (hx : p.favMult[k].denotes x) (r : Fin 10)
    (h : isBinary32Real (x * (1 + r.val))) :
    (p.extractGain k r : ℝ) ≤ x * (1 + r.val) ∧ x * (1 + r.val) < p.extractGain k r + 1 := by
  have hn : ((1 + r.val : Nat) : ℝ) = 1 + r.val := by push_cast; rfl
  rw [← hn] at h ⊢
  have hf := Nat.floor_eq_iff (mul_nonneg (denotes_nonneg hx) (1 + r.val).cast_nonneg) |>.1 rfl
  simpa only [Launch.extractGain, (exactFloor_eq_some_iff hx _ _).2 ⟨h, hf⟩, Option.getD_some] using hf

/-! ## suppress -/

/-- Everything `exactInteger` can do: it answers exactly where the product is an integer, and then with it (D33). -/
theorem exactInteger_eq_some_iff {mult : Multiplier} {x : ℝ} (h : mult.denotes x) (b : Word) (z : Int) :
    mult.exactInteger b = some z ↔ (b.toInt : ℝ) * x = z := by
  cases mult with
  | rational num den =>
    obtain ⟨hd, rfl⟩ := h
    have hd' : (den : ℤ) ≠ 0 := Int.natCast_ne_zero.2 hd
    have hx : (b.toInt * (num / den) : ℝ) = z ↔ b.toInt * (num : Int) = z * den := by
      rw [← mul_div_assoc, div_eq_iff (Nat.cast_ne_zero.2 hd)]; exact_mod_cast Iff.rfl
    rw [hx]
    simp only [Multiplier.exactInteger, ne_eq, hd, not_false_eq_true, true_and, Option.ite_none_right_eq_some,
      Option.some.injEq]
    constructor
    · rintro ⟨hm, rfl⟩; exact (Int.ediv_mul_cancel (Int.dvd_of_emod_eq_zero hm)).symm
    · intro e; rw [e]; exact ⟨Int.mul_emod_left .., Int.mul_ediv_cancel _ hd'⟩
  | irrational name =>
    by_cases hb : b = 0
    · subst hb; simp [Multiplier.exactInteger, eq_comm]
    · have hb' : b.toInt ≠ 0 := fun e => hb (BitVec.eq_of_toInt_eq (by simpa using e))
      simpa [Multiplier.exactInteger, (h.2.intCast_mul hb').ne_int z] using fun e => absurd e hb

/-- What `SuppressWins` is bound to (R160, D33). -/
theorem suppressWins_iff {p : Launch} {k : Fin 5} {x : ℝ} (hx : p.punMult[k].denotes x) {a b : Word} {z : Int}
    (h : (b.toInt : ℝ) * x = z) : p.suppressWins a b k = true ↔ a.toInt > z := by
  simp only [Launch.suppressWins, (exactInteger_eq_some_iff hx b z).2 h, decide_eq_true_eq]

end Sys2Proof
end

