-- ==== Sys2Proof/Laws/State.lean ====
section
/-! SUPPORT. One lemma per field per update of the state. -/

namespace Sys2Proof.Machine

variable (s : State) (r : RegNum) (v t : Word) (e : EmitEvent)

@[simp] theorem setPc_regs : (s.setPc t).regs = s.regs := rfl
@[simp] theorem setPc_pc : (s.setPc t).pc = t := rfl
@[simp] theorem setPc_mem : (s.setPc t).mem = s.mem := rfl
@[simp] theorem setPc_detector : (s.setPc t).detector = s.detector := rfl
@[simp] theorem setPc_drawCount : (s.setPc t).drawCount = s.drawCount := rfl
@[simp] theorem setPc_emitted : (s.setPc t).emitted = s.emitted := rfl
@[simp] theorem setPc_launch : (s.setPc t).launch = s.launch := rfl
@[simp] theorem setPc_readReg : (s.setPc t).readReg r = s.readReg r := rfl

@[simp] theorem advance_regs : s.advance.regs = s.regs := rfl
@[simp] theorem advance_pc : s.advance.pc = s.pc + 4 := rfl
@[simp] theorem advance_mem : s.advance.mem = s.mem := rfl
@[simp] theorem advance_detector : s.advance.detector = s.detector := rfl
@[simp] theorem advance_drawCount : s.advance.drawCount = s.drawCount := rfl
@[simp] theorem advance_emitted : s.advance.emitted = s.emitted := rfl
@[simp] theorem advance_launch : s.advance.launch = s.launch := rfl
@[simp] theorem advance_readReg : s.advance.readReg r = s.readReg r := rfl

@[simp] theorem writeReg_pc : (s.writeReg r v).pc = s.pc := by unfold State.writeReg; split <;> rfl
@[simp] theorem writeReg_mem : (s.writeReg r v).mem = s.mem := by unfold State.writeReg; split <;> rfl
@[simp] theorem writeReg_detector : (s.writeReg r v).detector = s.detector := by
  unfold State.writeReg; split <;> rfl
@[simp] theorem writeReg_drawCount : (s.writeReg r v).drawCount = s.drawCount := by
  unfold State.writeReg; split <;> rfl
@[simp] theorem writeReg_emitted : (s.writeReg r v).emitted = s.emitted := by
  unfold State.writeReg; split <;> rfl
@[simp] theorem writeReg_launch : (s.writeReg r v).launch = s.launch := by
  unfold State.writeReg; split <;> rfl

@[simp] theorem afterDraw_regs : s.afterDraw.regs = s.regs := rfl
@[simp] theorem afterDraw_pc : s.afterDraw.pc = s.pc := rfl
@[simp] theorem afterDraw_mem : s.afterDraw.mem = s.mem := rfl
@[simp] theorem afterDraw_detector : s.afterDraw.detector = s.detector := rfl
@[simp] theorem afterDraw_drawCount : s.afterDraw.drawCount = s.drawCount + 1 := rfl
@[simp] theorem afterDraw_emitted : s.afterDraw.emitted = s.emitted := rfl
@[simp] theorem afterDraw_launch : s.afterDraw.launch = s.launch := rfl
@[simp] theorem afterDraw_readReg : s.afterDraw.readReg r = s.readReg r := rfl

@[simp] theorem emit_regs : (s.emit e).regs = s.regs := rfl
@[simp] theorem emit_pc : (s.emit e).pc = s.pc := rfl
@[simp] theorem emit_mem : (s.emit e).mem = s.mem := rfl
@[simp] theorem emit_detector : (s.emit e).detector = s.detector := rfl
@[simp] theorem emit_drawCount : (s.emit e).drawCount = s.drawCount := rfl
@[simp] theorem emit_emitted : (s.emit e).emitted = s.emitted ++ [e] := rfl
@[simp] theorem emit_launch : (s.emit e).launch = s.launch := rfl
@[simp] theorem emit_readReg : (s.emit e).readReg r = s.readReg r := rfl

variable (b : Bool) (m : Mnemonic) (args : List Word)

@[simp] theorem emitIf_regs : (s.emitIf b m args).regs = s.regs := by unfold State.emitIf; split <;> rfl
@[simp] theorem emitIf_pc : (s.emitIf b m args).pc = s.pc := by unfold State.emitIf; split <;> rfl
@[simp] theorem emitIf_mem : (s.emitIf b m args).mem = s.mem := by unfold State.emitIf; split <;> rfl
@[simp] theorem emitIf_detector : (s.emitIf b m args).detector = s.detector := by
  unfold State.emitIf; split <;> rfl
@[simp] theorem emitIf_drawCount : (s.emitIf b m args).drawCount = s.drawCount := by
  unfold State.emitIf; split <;> rfl
@[simp] theorem emitIf_launch : (s.emitIf b m args).launch = s.launch := by
  unfold State.emitIf; split <;> rfl
@[simp] theorem emitIf_readReg : (s.emitIf b m args).readReg r = s.readReg r := by
  unfold State.emitIf; split <;> rfl
theorem emitIf_emitted : (s.emitIf b m args).emitted =
    if b then s.emitted ++ [.free m args s.emitted.length] else s.emitted := by
  unfold State.emitIf; split <;> rfl

@[simp] theorem placeWord_regs (w : Word) : (s.placeWord w).regs = s.regs := rfl
@[simp] theorem placeWord_pc (w : Word) : (s.placeWord w).pc = s.pc := rfl
@[simp] theorem placeWord_mem (w : Word) : (s.placeWord w).mem = s.mem := rfl

/-! ## A fault and its detector (R208, R209) -/

variable (f : Fault) (d d' : Detector)

@[simp] theorem withDetector_kind : (f.withDetector d).kind = f.kind := by cases f <;> rfl
@[simp] theorem withDetector_withDetector : (f.withDetector d).withDetector d' = f.withDetector d' := by
  cases f <;> rfl
@[simp] theorem withDetector_detector : (f.withDetector d).detector = f.detector.map (fun _ => d) := by
  cases f <;> rfl

/-- Driving the detector shows it in every outcome that leaves one. -/
theorem detectorOf_driveDetector (w : Word) (u : Verdict) (o : Host.Outcome State Fault Refusal) :
    detectorOf (driveDetector w u s o) =
      (detectorOf o).map (fun _ => s.detector.observe s.launch.roles (fieldsOf w) u) := by
  cases o <;> simp [driveDetector, detectorOf]

end Sys2Proof.Machine
end

