-- ==== Sys2Proof/Laws/Ops.lean ====
section
/-! SUPPORT. What the shared operations can do: registers, instruction memory, data memory and its canonical form, the
two memory primitives, the execution unit. -/

namespace Sys2Proof.Machine

/-! ## Registers -/

@[simp] theorem readReg_zero (s : State) : s.readReg 0 = 0 := rfl

/-- A register read after a register write (R22). -/
theorem readReg_writeReg (s : State) (r q : RegNum) (v : Word) :
    (s.writeReg r v).readReg q = if q = r ∧ r ≠ 0 then v else s.readReg q := by
  unfold State.writeReg State.readReg
  by_cases hr : r = 0
  · subst hr; simp
  · by_cases hq : q = 0
    · subst hq; simp [hr, Ne.symm hr]
    · simp only [hr, hq, if_false, Fin.getElem_fin, Vector.getElem_set, ne_eq, not_false_eq_true, and_true]
      by_cases h : r = q
      · subst h; simp
      · have h' : ¬ (r.val = q.val) := fun e => h (Fin.ext e)
        simp [h', Ne.symm h]

theorem readReg_writeReg_ne (s : State) {r q : RegNum} (v : Word) (h : q ≠ r) :
    (s.writeReg r v).readReg q = s.readReg q := by
  rw [readReg_writeReg]; simp [h]

theorem readReg_writeReg_same (s : State) (r : RegNum) (v : Word) :
    (s.writeReg r v).readReg r = if r = 0 then 0 else v := by
  rw [readReg_writeReg]
  by_cases h : r = 0
  · subst h; simp
  · simp [h]

@[simp] theorem writeReg_zero (s : State) (v : Word) : s.writeReg 0 v = s := rfl

/-- A write never touches slot 0 of the register file (R22). -/
theorem writeReg_slot_zero (s : State) (r : RegNum) (v : Word) : (s.writeReg r v).regs[0] = s.regs[0] := by
  unfold State.writeReg
  split
  · rfl
  · rename_i h
    have : r.val ≠ 0 := fun e => h (Fin.ext e)
    simp [this]

/-! ## Instruction memory -/

/-- Placing a word defines `IMem` at that address and leaves every other address as it was. -/
theorem imemAt_imemInsert (im : List (Nat × Word)) (a b : Nat) (w : Word) :
    imemAt (imemInsert im a w) b = if b = a then some w else imemAt im b := by
  induction im with
  | nil =>
    by_cases h : b = a
    · simp [imemInsert, imemAt, h]
    · simp [imemInsert, imemAt, h, Ne.symm h]
  | cons c rest ih =>
    obtain ⟨k, v⟩ := c
    unfold imemInsert
    split
    · by_cases h : b = a
      · simp [imemAt, h]
      · simp [imemAt, h, Ne.symm h]
    · split
      · rename_i h
        subst h
        by_cases h : b = a
        · simp [imemAt, h]
        · simp [imemAt, h, Ne.symm h]
      · rename_i h1 h2
        by_cases h : b = a
        · subst h
          simp [imemAt, ih, Ne.symm h2]
        · by_cases hk : k = b
          · simp [imemAt, h, hk]
          · simp [imemAt, ih, h, hk]

/-- The word `placeWord` places is the one the next step fetches. -/
@[simp] theorem fetch_placeWord (s : State) (w : Word) : (s.placeWord w).fetch = some w := by
  simp [State.fetch, State.placeWord, imemAt_imemInsert]

/-! ## Data memory, byte by byte -/

/-- No address of a canonical list is below its bound, so such an address reads as an unlisted one. -/
theorem readByte_of_lt {lo : Nat} {m : Memory} (h : Memory.wfFrom lo m = true) {a : Nat} (ha : a < lo) :
    m.readByte a = unlistedByte := by
  induction m generalizing lo with
  | nil => rfl
  | cons c rest ih =>
    obtain ⟨k, b⟩ := c
    simp only [Memory.wfFrom, Bool.and_eq_true, decide_eq_true_eq] at h
    have hk : k ≠ a := by omega
    simp only [Memory.readByte, hk, if_false]
    exact ih h.2 (by omega)

/-- A byte read after a byte write, in canonical memory. -/
theorem readByte_writeByte_from {lo : Nat} {m : Memory} (h : Memory.wfFrom lo m = true) (a b : Nat) (v : Byte) :
    (m.writeByte a v).readByte b = if b = a then v else m.readByte b := by
  induction m generalizing lo with
  | nil =>
    unfold Memory.writeByte
    split
    · rename_i hv; simp [Memory.readByte, hv]
    · by_cases hb : b = a
      · simp [Memory.readByte, hb]
      · simp [Memory.readByte, hb, Ne.symm hb]
  | cons c rest ih =>
    obtain ⟨k, w⟩ := c
    simp only [Memory.wfFrom, Bool.and_eq_true, decide_eq_true_eq] at h
    obtain ⟨⟨⟨hlo, hk⟩, hw⟩, hrest⟩ := h
    unfold Memory.writeByte
    split
    · rename_i hak
      split
      · rename_i hv
        by_cases hb : b = a
        · subst hb
          have hkb : k ≠ b := by omega
          simp [Memory.readByte, hkb, hv, readByte_of_lt hrest (show b < k + 1 by omega)]
        · simp [hb]
      · by_cases hb : b = a
        · simp [Memory.readByte, hb]
        · simp [Memory.readByte, hb, Ne.symm hb]
    · split
      · rename_i hak
        subst hak
        split
        · rename_i hv
          by_cases hb : b = a
          · subst hb; simp [hv, readByte_of_lt hrest (Nat.lt_succ_self b)]
          · simp [Memory.readByte, hb, Ne.symm hb]
        · by_cases hb : b = a
          · simp [Memory.readByte, hb]
          · simp [Memory.readByte, hb, Ne.symm hb]
      · rename_i h1 h2
        by_cases hkb : k = b
        · have : b ≠ a := by omega
          simp [Memory.readByte, hkb, this]
        · simp [Memory.readByte, hkb, ih hrest]

theorem readByte_writeByte {m : Memory} (h : m.wf = true) (a b : Nat) (v : Byte) :
    (m.writeByte a v).readByte b = if b = a then v else m.readByte b :=
  readByte_writeByte_from h a b v

theorem wfFrom_mono {lo lo' : Nat} {m : Memory} (h : Memory.wfFrom lo m = true) (hl : lo' ≤ lo) :
    Memory.wfFrom lo' m = true := by
  cases m with
  | nil => rfl
  | cons c rest =>
    simp only [Memory.wfFrom, Bool.and_eq_true, decide_eq_true_eq] at h ⊢
    exact ⟨⟨⟨by omega, h.1.1.2⟩, h.1.2⟩, h.2⟩

/-- A byte write keeps the canonical form. -/
theorem wfFrom_writeByte {lo : Nat} {m : Memory} (h : Memory.wfFrom lo m = true) {a : Nat} (ha : lo ≤ a)
    (ha' : a < 2 ^ 32) (v : Byte) : Memory.wfFrom lo (m.writeByte a v) = true := by
  induction m generalizing lo with
  | nil =>
    unfold Memory.writeByte
    split
    · rfl
    · rename_i hv; simp [Memory.wfFrom, ha, hv]; omega
  | cons c rest ih =>
    obtain ⟨k, w⟩ := c
    simp only [Memory.wfFrom, Bool.and_eq_true, decide_eq_true_eq] at h
    obtain ⟨⟨⟨hlo, hk⟩, hw⟩, hrest⟩ := h
    unfold Memory.writeByte
    split
    · rename_i hak
      split
      · simp only [Memory.wfFrom, Bool.and_eq_true, decide_eq_true_eq]; exact ⟨⟨⟨hlo, hk⟩, hw⟩, hrest⟩
      · rename_i hv
        simp only [Memory.wfFrom, Bool.and_eq_true, decide_eq_true_eq]
        exact ⟨⟨⟨ha, ha'⟩, hv⟩, ⟨⟨by omega, hk⟩, hw⟩, hrest⟩
    · split
      · rename_i hak
        subst hak
        split
        · exact wfFrom_mono hrest (by omega)
        · rename_i hv
          simp only [Memory.wfFrom, Bool.and_eq_true, decide_eq_true_eq]
          exact ⟨⟨⟨hlo, hk⟩, hv⟩, hrest⟩
      · simp only [Memory.wfFrom, Bool.and_eq_true, decide_eq_true_eq]
        exact ⟨⟨⟨hlo, hk⟩, hw⟩, ih hrest (by omega)⟩

theorem wf_writeByte {m : Memory} (h : m.wf = true) {a : Nat} (ha : a < 2 ^ 32) (v : Byte) :
    (m.writeByte a v).wf = true :=
  wfFrom_writeByte h (Nat.zero_le a) ha v

/-- A word write keeps the canonical form. -/
theorem wf_writeWord {m : Memory} (h : m.wf = true) (order : ByteOrder) {a : Nat} (ha : a + 3 < 2 ^ 32) (v : Word) :
    (m.writeWord order a v).wf = true :=
  wf_writeByte (wf_writeByte (wf_writeByte (wf_writeByte h (by omega) _) (by omega) _) (by omega) _) ha _

/-- A byte read after a word write, in canonical memory: one of the four bytes of the word, or the byte as it was. -/
theorem readByte_writeWord {m : Memory} (h : m.wf = true) (order : ByteOrder) {a : Nat} (ha : a + 3 < 2 ^ 32)
    (v : Word) (b : Nat) :
    (m.writeWord order a v).readByte b =
      if b = a + 3 then byteOf v (bytePlace order 3)
      else if b = a + 2 then byteOf v (bytePlace order 2)
      else if b = a + 1 then byteOf v (bytePlace order 1)
      else if b = a then byteOf v (bytePlace order 0)
      else m.readByte b := by
  have h1 := wf_writeByte h (show a < 2 ^ 32 by omega) (byteOf v (bytePlace order 0))
  have h2 := wf_writeByte h1 (show a + 1 < 2 ^ 32 by omega) (byteOf v (bytePlace order 1))
  have h3 := wf_writeByte h2 (show a + 2 < 2 ^ 32 by omega) (byteOf v (bytePlace order 2))
  unfold Memory.writeWord
  rw [readByte_writeByte h3, readByte_writeByte h2, readByte_writeByte h1, readByte_writeByte h]

/-- The four bytes of a word make the word. -/
theorem wordOfBytes_byteOf (v : Word) : wordOfBytes (byteOf v 0) (byteOf v 1) (byteOf v 2) (byteOf v 3) = v := by
  apply BitVec.eq_of_getLsbD_eq
  intro i hi
  simp only [wordOfBytes, byteOf, BitVec.getLsbD_append, BitVec.getLsbD_extractLsb']
  split
  · rename_i h; rw [Nat.mul_zero, Nat.zero_add]; simp [h]
  · split
    · rename_i h1 h2; rw [show 8 * 1 + (i - 8) = i by omega]; simp [h2]
    · split
      · rename_i h1 h2 h3; rw [show 8 * 2 + (i - 8 - 8) = i by omega]; simp only [h3, decide_true, Bool.true_and]
      · rename_i h1 h2 h3
        have h4 : i - 8 - 8 - 8 < 8 := by omega
        rw [show 8 * 3 + (i - 8 - 8 - 8) = i by omega]; simp only [h4, decide_true, Bool.true_and]

/-- The word just stored reads back, in either byte order (R42, R47). -/
theorem readWord_writeWord_same {m : Memory} (h : m.wf = true) (order : ByteOrder) {a : Nat} (ha : a + 3 < 2 ^ 32)
    (v : Word) : (m.writeWord order a v).readWord order a = v := by
  cases order <;>
    simp [Memory.readWord, readByte_writeWord h _ ha, bytePlace, wordOfBytes_byteOf]

/-- A word apart from the one stored reads as before (R47, R52). -/
theorem readWord_writeWord_apart {m : Memory} (h : m.wf = true) (order : ByteOrder) {a b : Nat}
    (ha : a + 3 < 2 ^ 32) (hab : b + 3 < a ∨ a + 3 < b) (v : Word) :
    (m.writeWord order a v).readWord order b = m.readWord order b := by
  have e : ∀ k, k ≤ 3 → (m.writeWord order a v).readByte (b + k) = m.readByte (b + k) := by
    intro k hk
    rw [readByte_writeWord h order ha]
    have : b + k ≠ a + 3 ∧ b + k ≠ a + 2 ∧ b + k ≠ a + 1 ∧ b + k ≠ a := by omega
    simp [this]
  have e0 := e 0 (by omega)
  simp only [Nat.add_zero] at e0
  cases order <;> simp [Memory.readWord, e0, e 1 (by omega), e 2 (by omega), e 3 (by omega)]

/-! ## The two memory primitives -/

/-- An aligned address is a multiple of 4 (R43). -/
theorem aligned_iff (a : Word) : aligned a = true ↔ a.toNat % 4 = 0 := by
  simp only [aligned, beq_iff_eq]
  constructor
  · intro h
    have := congrArg BitVec.toNat h
    simpa [BitVec.extractLsb'_toNat] using this
  · intro h
    apply BitVec.eq_of_toNat_eq
    simpa [BitVec.extractLsb'_toNat] using h

/-- The last byte of an aligned word is inside the address space. -/
theorem aligned_top {a : Word} (h : aligned a = true) : a.toNat + 3 < 2 ^ 32 := by
  have := (aligned_iff a).1 h
  have := a.isLt
  omega

/-- Everything `MemRead` can do (R47). -/
theorem memRead_cases (s : State) (a : Word) :
    (s.accessible a .load = true ∧ memRead s a = .ok (s.mem.readWord s.launch.byteOrder a.toNat)) ∨
      (s.accessible a .load = false ∧ memRead s a = .error { a := a, kind := .load }) := by
  unfold memRead
  by_cases h : s.accessible a .load = true
  · exact .inl ⟨h, by simp [h]⟩
  · exact .inr ⟨by simpa using h, by simp [h]⟩

/-- Everything `MemWrite` can do (R48). -/
theorem memWrite_cases (s : State) (a v : Word) :
    (s.accessible a .store = true ∧
        memWrite s a v = .ok { s with mem := s.mem.writeWord s.launch.byteOrder a.toNat v }) ∨
      (s.accessible a .store = false ∧ memWrite s a v = .error { a := a, kind := .store }) := by
  unfold memWrite
  by_cases h : s.accessible a .store = true
  · exact .inl ⟨h, by simp [h]⟩
  · exact .inr ⟨by simpa using h, by simp [h]⟩

theorem aligned_of_accessible {s : State} {a : Word} {kind : AccessKind} (h : s.accessible a kind = true) :
    aligned a = true := by
  simp only [State.accessible, Bool.and_eq_true] at h
  exact h.1

/-! ## The execution unit and the counter -/

/-- Everything the execution unit can do (R100): a fault with nothing written, or one register written. -/
theorem aluInto_cases (op : AluOp) (rd : RegNum) (a b : Word) (s : State) :
    (aluOvf op a b = true ∧ aluInto op rd a b s = raiseOverflow s) ∨
      (aluOvf op a b = false ∧ aluInto op rd a b s = .next ((s.writeReg rd (aluResult op a b)).advance)) := by
  unfold aluInto
  by_cases h : aluOvf op a b = true
  · exact .inl ⟨h, by simp [h]⟩
  · exact .inr ⟨by simpa using h, by simp [h]⟩

/-- Everything step (b) of meltdown can do (R164, R191): nothing, or one word stored. -/
theorem bumpCounter_cases (s : State) :
    ((s.accessible (counterAddress s) .load && s.accessible (counterAddress s) .store) = false ∧
        bumpCounter s = s) ∨
      ((s.accessible (counterAddress s) .load && s.accessible (counterAddress s) .store) = true ∧
        bumpCounter s =
          { s with
            mem := s.mem.writeWord s.launch.byteOrder (counterAddress s).toNat
              (counterNext s.launch.counterCeiling
                (s.mem.readWord s.launch.byteOrder (counterAddress s).toNat)) }) := by
  unfold bumpCounter
  rcases memRead_cases s (counterAddress s) with ⟨hl, e⟩ | ⟨hl, e⟩
  · rw [e]
    simp only
    rcases memWrite_cases s (counterAddress s)
        (counterNext s.launch.counterCeiling
          (s.mem.readWord s.launch.byteOrder (counterAddress s).toNat)) with ⟨hs, e'⟩ | ⟨hs, e'⟩
    · rw [e']; exact .inr ⟨by simp [hl, hs], rfl⟩
    · rw [e']; exact .inl ⟨by simp [hs], rfl⟩
  · rw [e]; exact .inl ⟨by simp [hl], rfl⟩

end Sys2Proof.Machine
end

