-- ==== Sys2Proof/Laws/PerInstr.lean ====
section
/-! SUPPORT. Packing (spec/30_encoding.md R81): the word of an instruction carries its row's fixed bits and gives every
field back. -/

namespace Sys2Proof.Laws.Packing

/-- The word of `i` matches the descriptor of its own row, and its fields are those of `i`. -/
def Statement (i : Instr) : Prop :=
  i.mnemonic.matchesWord (encode i) = true ∧ Instr.ofFields i.mnemonic (fieldsOf (encode i)) = i

theorem ofFin_toFin (r : RegNum) (v : BitVec 5) (h : v = BitVec.ofFin r) : v.toFin = r := by
  subst h; rfl

/-- The register fields and the shamt of a word packed in format R (R62, R81). -/
theorem fields_packR (m : Mnemonic) (rd rs rt : RegNum) (shamt : BitVec 5)
    (h : ∀ k, k < 26 → 6 ≤ k → m.pattern.getLsbD k = false) :
    (fieldsOf (packR m rd rs rt shamt)).rd = rd ∧ (fieldsOf (packR m rd rs rt shamt)).rs = rs ∧
      (fieldsOf (packR m rd rs rt shamt)).rt = rt ∧ (fieldsOf (packR m rd rs rt shamt)).shamt = shamt := by
  have hp : ∀ k (_ : 6 ≤ k) (h2 : k < 26), m.pattern[k]'(by omega) = false := by
    intro k h1 h2
    rw [← BitVec.getLsbD_eq_getElem]
    exact h k h2 h1
  refine ⟨ofFin_toFin _ ((packR m rd rs rt shamt).extractLsb' 11 5) ?_,
    ofFin_toFin _ ((packR m rd rs rt shamt).extractLsb' 21 5) ?_,
    ofFin_toFin _ ((packR m rd rs rt shamt).extractLsb' 16 5) ?_, ?_⟩ <;>
  · simp only [packR, fieldsOf]
    generalize (BitVec.ofFin rd : BitVec 5) = d
    generalize (BitVec.ofFin rs : BitVec 5) = a
    generalize (BitVec.ofFin rt : BitVec 5) = b
    apply BitVec.eq_of_getLsbD_eq
    intro i hi
    interval_cases i <;> simp [hp]

/-- The register fields and the immediate of a word packed in format I or I-BRANCH (R62, R81). -/
theorem fields_packI (m : Mnemonic) (rs rt : RegNum) (imm16 : BitVec 16)
    (h : ∀ k, k < 26 → m.pattern.getLsbD k = false) :
    (fieldsOf (packI m rs rt imm16)).rs = rs ∧ (fieldsOf (packI m rs rt imm16)).rt = rt ∧
      (fieldsOf (packI m rs rt imm16)).imm16 = imm16 := by
  have hp : ∀ k (h2 : k < 26), m.pattern[k]'(by omega) = false := by
    intro k h2
    rw [← BitVec.getLsbD_eq_getElem]
    exact h k h2
  refine ⟨ofFin_toFin _ ((packI m rs rt imm16).extractLsb' 21 5) ?_,
    ofFin_toFin _ ((packI m rs rt imm16).extractLsb' 16 5) ?_, ?_⟩ <;>
  · simp only [packI, fieldsOf]
    generalize (BitVec.ofFin rs : BitVec 5) = a
    generalize (BitVec.ofFin rt : BitVec 5) = b
    apply BitVec.eq_of_getLsbD_eq
    intro i hi
    interval_cases i <;> simp [hp]

/-- The target of a word packed in format J (R62, R81). -/
theorem fields_packJ (m : Mnemonic) (target26 : BitVec 26) (h : ∀ k, k < 26 → m.pattern.getLsbD k = false) :
    (fieldsOf (packJ m target26)).target26 = target26 := by
  apply BitVec.eq_of_getLsbD_eq
  intro i hi
  have hp := h i hi
  simp [fieldsOf, packJ, hi, hp]
  omega

/-- A word packed in format R carries its row's opcode and funct (R69, R81). -/
theorem matches_packR (m : Mnemonic) (rd rs rt : RegNum) (shamt : BitVec 5) (hm : m.mask = 0xFC00003F)
    (h : m.pattern &&& 0xFC00003F = m.pattern) : m.matchesWord (packR m rd rs rt shamt) = true := by
  have e : packR m rd rs rt shamt &&& 0xFC00003F = m.pattern := by
    conv => rhs; rw [← h]
    simp only [packR]
    generalize (BitVec.ofFin rd : BitVec 5) = d
    generalize (BitVec.ofFin rs : BitVec 5) = a
    generalize (BitVec.ofFin rt : BitVec 5) = b
    apply BitVec.eq_of_getLsbD_eq
    intro i hi
    interval_cases i <;> simp
  simpa [Mnemonic.matchesWord, hm] using e

/-- A word packed in format I or I-BRANCH carries its row's opcode (R69, R81). -/
theorem matches_packI (m : Mnemonic) (rs rt : RegNum) (imm16 : BitVec 16) (hm : m.mask = 0xFC000000)
    (h : m.pattern &&& 0xFC000000 = m.pattern) : m.matchesWord (packI m rs rt imm16) = true := by
  have e : packI m rs rt imm16 &&& 0xFC000000 = m.pattern := by
    conv => rhs; rw [← h]
    simp only [packI]
    generalize (BitVec.ofFin rs : BitVec 5) = a
    generalize (BitVec.ofFin rt : BitVec 5) = b
    apply BitVec.eq_of_getLsbD_eq
    intro i hi
    interval_cases i <;> simp
  simpa [Mnemonic.matchesWord, hm] using e

/-- A word packed in format J carries its row's opcode (R69, R81). -/
theorem matches_packJ (m : Mnemonic) (target26 : BitVec 26) (hm : m.mask = 0xFC000000)
    (h : m.pattern &&& 0xFC000000 = m.pattern) : m.matchesWord (packJ m target26) = true := by
  have e : packJ m target26 &&& 0xFC000000 = m.pattern := by
    conv => rhs; rw [← h]
    apply BitVec.eq_of_getLsbD_eq
    intro i hi
    interval_cases i <;> simp [packJ]
  simpa [Mnemonic.matchesWord, hm] using e

theorem add (rd rs rt : RegNum) (shamt : BitVec 5) : Statement (.add rd rs rt shamt) := by
  obtain ⟨h1, h2, h3, h4⟩ := fields_packR .add rd rs rt shamt (by decide)
  exact ⟨matches_packR .add rd rs rt shamt (by decide) (by decide), by simp [Instr.ofFields, Instr.mnemonic, encode, *]⟩

theorem sub (rd rs rt : RegNum) (shamt : BitVec 5) : Statement (.sub rd rs rt shamt) := by
  obtain ⟨h1, h2, h3, h4⟩ := fields_packR .sub rd rs rt shamt (by decide)
  exact ⟨matches_packR .sub rd rs rt shamt (by decide) (by decide), by simp [Instr.ofFields, Instr.mnemonic, encode, *]⟩

theorem mul (rd rs rt : RegNum) (shamt : BitVec 5) : Statement (.mul rd rs rt shamt) := by
  obtain ⟨h1, h2, h3, h4⟩ := fields_packR .mul rd rs rt shamt (by decide)
  exact ⟨matches_packR .mul rd rs rt shamt (by decide) (by decide), by simp [Instr.ofFields, Instr.mnemonic, encode, *]⟩

theorem and (rd rs rt : RegNum) (shamt : BitVec 5) : Statement (.and rd rs rt shamt) := by
  obtain ⟨h1, h2, h3, h4⟩ := fields_packR .and rd rs rt shamt (by decide)
  exact ⟨matches_packR .and rd rs rt shamt (by decide) (by decide), by simp [Instr.ofFields, Instr.mnemonic, encode, *]⟩

theorem or (rd rs rt : RegNum) (shamt : BitVec 5) : Statement (.or rd rs rt shamt) := by
  obtain ⟨h1, h2, h3, h4⟩ := fields_packR .or rd rs rt shamt (by decide)
  exact ⟨matches_packR .or rd rs rt shamt (by decide) (by decide), by simp [Instr.ofFields, Instr.mnemonic, encode, *]⟩

theorem slt (rd rs rt : RegNum) (shamt : BitVec 5) : Statement (.slt rd rs rt shamt) := by
  obtain ⟨h1, h2, h3, h4⟩ := fields_packR .slt rd rs rt shamt (by decide)
  exact ⟨matches_packR .slt rd rs rt shamt (by decide) (by decide), by simp [Instr.ofFields, Instr.mnemonic, encode, *]⟩

theorem j (target26 : BitVec 26) : Statement (.j target26) := by
  have h1 := fields_packJ .j target26 (by decide)
  exact ⟨matches_packJ .j target26 (by decide) (by decide), by simp [Instr.ofFields, Instr.mnemonic, encode, h1]⟩

theorem jal (target26 : BitVec 26) : Statement (.jal target26) := by
  have h1 := fields_packJ .jal target26 (by decide)
  exact ⟨matches_packJ .jal target26 (by decide) (by decide), by simp [Instr.ofFields, Instr.mnemonic, encode, h1]⟩

theorem beq (rs rt : RegNum) (imm16 : BitVec 16) : Statement (.beq rs rt imm16) := by
  obtain ⟨h1, h2, h3⟩ := fields_packI .beq rs rt imm16 (by decide)
  exact ⟨matches_packI .beq rs rt imm16 (by decide) (by decide), by simp [Instr.ofFields, Instr.mnemonic, encode, *]⟩

theorem bne (rs rt : RegNum) (imm16 : BitVec 16) : Statement (.bne rs rt imm16) := by
  obtain ⟨h1, h2, h3⟩ := fields_packI .bne rs rt imm16 (by decide)
  exact ⟨matches_packI .bne rs rt imm16 (by decide) (by decide), by simp [Instr.ofFields, Instr.mnemonic, encode, *]⟩

theorem addi (rt rs : RegNum) (imm16 : BitVec 16) : Statement (.addi rt rs imm16) := by
  obtain ⟨h1, h2, h3⟩ := fields_packI .addi rs rt imm16 (by decide)
  exact ⟨matches_packI .addi rs rt imm16 (by decide) (by decide), by simp [Instr.ofFields, Instr.mnemonic, encode, *]⟩

theorem lw (rt rs : RegNum) (imm16 : BitVec 16) : Statement (.lw rt rs imm16) := by
  obtain ⟨h1, h2, h3⟩ := fields_packI .lw rs rt imm16 (by decide)
  exact ⟨matches_packI .lw rs rt imm16 (by decide) (by decide), by simp [Instr.ofFields, Instr.mnemonic, encode, *]⟩

theorem sw (rt rs : RegNum) (imm16 : BitVec 16) : Statement (.sw rt rs imm16) := by
  obtain ⟨h1, h2, h3⟩ := fields_packI .sw rs rt imm16 (by decide)
  exact ⟨matches_packI .sw rs rt imm16 (by decide) (by decide), by simp [Instr.ofFields, Instr.mnemonic, encode, *]⟩

theorem extract (op0 op1 : RegNum) (imm16 : BitVec 16) : Statement (.extract op0 op1 imm16) := by
  obtain ⟨h1, h2, h3⟩ := fields_packI .extract op1 op0 imm16 (by decide)
  exact ⟨matches_packI .extract op1 op0 imm16 (by decide) (by decide), by simp [Instr.ofFields, Instr.mnemonic, encode, *]⟩

theorem winst (op0 op1 : RegNum) (imm16 : BitVec 16) : Statement (.winst op0 op1 imm16) := by
  obtain ⟨h1, h2, h3⟩ := fields_packI .winst op1 op0 imm16 (by decide)
  exact ⟨matches_packI .winst op1 op0 imm16 (by decide) (by decide), by simp [Instr.ofFields, Instr.mnemonic, encode, *]⟩

theorem winsight (op0 op1 : RegNum) (imm16 : BitVec 16) : Statement (.winsight op0 op1 imm16) := by
  obtain ⟨h1, h2, h3⟩ := fields_packI .winsight op1 op0 imm16 (by decide)
  exact ⟨matches_packI .winsight op1 op0 imm16 (by decide) (by decide), by simp [Instr.ofFields, Instr.mnemonic, encode, *]⟩

theorem wattach (op0 op1 : RegNum) (imm16 : BitVec 16) : Statement (.wattach op0 op1 imm16) := by
  obtain ⟨h1, h2, h3⟩ := fields_packI .wattach op1 op0 imm16 (by decide)
  exact ⟨matches_packI .wattach op1 op0 imm16 (by decide) (by decide), by simp [Instr.ofFields, Instr.mnemonic, encode, *]⟩

theorem wrepress (op0 op1 : RegNum) (imm16 : BitVec 16) : Statement (.wrepress op0 op1 imm16) := by
  obtain ⟨h1, h2, h3⟩ := fields_packI .wrepress op1 op0 imm16 (by decide)
  exact ⟨matches_packI .wrepress op1 op0 imm16 (by decide) (by decide), by simp [Instr.ofFields, Instr.mnemonic, encode, *]⟩

theorem suppress (op0 op1 : RegNum) (imm16 : BitVec 16) : Statement (.suppress op0 op1 imm16) := by
  obtain ⟨h1, h2, h3⟩ := fields_packI .suppress op1 op0 imm16 (by decide)
  exact ⟨matches_packI .suppress op1 op0 imm16 (by decide) (by decide), by simp [Instr.ofFields, Instr.mnemonic, encode, *]⟩

theorem ordeal (op0 op1 : RegNum) (imm16 : BitVec 16) : Statement (.ordeal op0 op1 imm16) := by
  obtain ⟨h1, h2, h3⟩ := fields_packI .ordeal op1 op0 imm16 (by decide)
  exact ⟨matches_packI .ordeal op1 op0 imm16 (by decide) (by decide), by simp [Instr.ofFields, Instr.mnemonic, encode, *]⟩

theorem panic (op0 op1 : RegNum) (imm16 : BitVec 16) : Statement (.panic op0 op1 imm16) := by
  obtain ⟨h1, h2, h3⟩ := fields_packI .panic op1 op0 imm16 (by decide)
  exact ⟨matches_packI .panic op1 op0 imm16 (by decide) (by decide), by simp [Instr.ofFields, Instr.mnemonic, encode, *]⟩

theorem meltdown (op0 op1 : RegNum) (imm16 : BitVec 16) : Statement (.meltdown op0 op1 imm16) := by
  obtain ⟨h1, h2, h3⟩ := fields_packI .meltdown op1 op0 imm16 (by decide)
  exact ⟨matches_packI .meltdown op1 op0 imm16 (by decide) (by decide), by simp [Instr.ofFields, Instr.mnemonic, encode, *]⟩

theorem ego (op0 op1 : RegNum) (imm16 : BitVec 16) : Statement (.ego op0 op1 imm16) := by
  obtain ⟨h1, h2, h3⟩ := fields_packI .ego op0 op1 imm16 (by decide)
  exact ⟨matches_packI .ego op0 op1 imm16 (by decide) (by decide), by simp [Instr.ofFields, Instr.mnemonic, encode, *]⟩

end Sys2Proof.Laws.Packing
end

