-- ==== Sys2Proof/Tests/Slice0.lean ====
section
/-! SUPPORT. Tests of single steps, and a witness for every statement with hypotheses. Expected values come from
spec/95_test_vectors.md, or are worked out by hand from the rule named. -/

namespace Sys2Proof.Tests

open Sys2Proof.Machine

/-! ## Small states -/

/-- The tables that the vectors of 95_test_vectors.md 2.6 assume. -/
def testLaunch : Launch :=
  { defaultLaunch with
    favMult := #v[.rational 1 1, .rational 1 3, .rational 3 2, .irrational 0, .rational 2 1]
    punMult := #v[.rational 1 1, .rational 2 1, .rational 1 1, .irrational 0, .rational 1 1]
    severity := #v[10, 20, 30, 40]
    bonus := #v[5, 6, 7, 8, 9]
    counterCeiling := 10
    emits := { extract := true, suppress := false, ordeal := true, ego := false, meltdown := false }
    randomSource := 0 }

/-- A state at reset of `p` but for the registers listed. -/
def withRegs (p : Launch) (l : List (RegNum × Word)) : State :=
  l.foldl (fun s c => s.writeReg c.1 c.2) (State.boot p [])

/-- A state of the test launch with the registers listed. -/
def st (l : List (RegNum × Word)) : State := withRegs testLaunch l

/-- The same with a word of data memory at launch. -/
def stMem (l : List (RegNum × Word)) (a v : Word) : State :=
  { st l with mem := Memory.writeWord .little [] a.toNat v }

/-- Register `r` of a next state. -/
def regOf (r : RegNum) : Host.Outcome State Fault Refusal → Option Word
  | .next t => some (t.readReg r)
  | .fault _ | .refused _ => none

/-- The pc of a next state. -/
def pcOf : Host.Outcome State Fault Refusal → Option Word
  | .next t => some t.pc
  | .fault _ | .refused _ => none

/-- The word at `a` in the memory of a next state. -/
def wordOf (a : Word) : Host.Outcome State Fault Refusal → Option Word
  | .next t => some (t.mem.readWord t.launch.byteOrder a.toNat)
  | .fault _ | .refused _ => none

/-- The lines of a next state. -/
def linesOf : Host.Outcome State Fault Refusal → Option (List EmitEvent)
  | .next t => some t.emitted
  | .fault _ | .refused _ => none

/-- The hazard outputs of an outcome. -/
def hazardOf (o : Host.Outcome State Fault Refusal) : Option (Bool × Bool × Bool) :=
  (detectorOf o).map (fun d => (d.hazard, d.hazardRs, d.hazardRt))

/-- The hazard latch of an outcome. -/
def latchOf (o : Host.Outcome State Fault Refusal) : Option RegSet :=
  (detectorOf o).map Detector.prevWs

/-- The fault of an outcome. -/
def faultOf : Host.Outcome State Fault Refusal → Option Fault
  | .fault f => some f
  | .next _ | .refused _ => none

/-- A catalog order with `and` before mul (R74). -/
def andFirst : List Mnemonic :=
  [.add, .sub, .and, .mul, .or, .slt, .j, .jal, .beq, .bne, .addi, .lw, .sw,
   .extract, .winst, .winsight, .wattach, .wrepress, .suppress, .ordeal, .ego, .panic, .meltdown]

/-- A launch of the program of 95_test_vectors.md P6: `addi $9,$0,1`, then a zero word. -/
def progLaunch : Launch :=
  { testLaunch with imem := [(0x00400000, 0x20090001), (0x00400004, 0x00000000)] }

/-- That program about to run at `pc`. -/
def prog (pc : Word) : State := (State.boot progLaunch []).setPc pc

/-- A step of the word of `cur` after a step that ran `prev`: registers 8 and 29 point to valid memory. -/
def after (prev cur : Instr) : Host.Outcome State Fault Refusal :=
  let s := st [(8, 0x10010000), (29, 0x10010000)]
  step (State.withFetchWord
    { s with detector := { Detector.reset with prevWs := writeSet defaultRoles prev } } 32 (encode cur).toNat)

theorem exists_next {o : Host.Outcome State Fault Refusal} (h : (pcOf o).isSome = true) : ∃ t, o = .next t := by
  cases o with
  | next t => exact ⟨t, rfl⟩
  | fault f => cases h
  | refused r => cases h

theorem exists_fault {o : Host.Outcome State Fault Refusal} {f : Fault} (h : faultOf o = some f) : o = .fault f := by
  cases o with
  | next t => cases h
  | fault g => cases h; rfl
  | refused r => cases h

/-! ## The catalog and the decoder -/

/-- Match and mask of the 23 rows, from spec/opcode_table.json. -/
theorem test_catalog_match_and_mask :
    (Mnemonic.all.take 10).map (fun m => (m.pattern, m.mask)) =
      [(0x00000020, 0xFC00003F), (0x00000022, 0xFC00003F), (0x00000024, 0xFC00003F), (0x00000024, 0xFC00003F),
       (0x00000025, 0xFC00003F), (0x0000002A, 0xFC00003F), (0x08000000, 0xFC000000), (0x0C000000, 0xFC000000),
       (0x10000000, 0xFC000000), (0x14000000, 0xFC000000)] ∧
    (Mnemonic.all.drop 10).map (fun m => (m.pattern, m.mask)) =
      [(0x20000000, 0xFC000000), (0x8C000000, 0xFC000000), (0xAC000000, 0xFC000000), (0x40000000, 0xFC000000),
       (0x44000000, 0xFC000000), (0x48000000, 0xFC000000), (0x4C000000, 0xFC000000), (0x50000000, 0xFC000000),
       (0x54000000, 0xFC000000), (0x58000000, 0xFC000000), (0x5C000000, 0xFC000000), (0x60000000, 0xFC000000),
       (0x64000000, 0xFC000000)] := by decide

/-- Format R, bit by bit from R62 and R70: opcode, rs, rt, rd, shamt, funct. -/
theorem test_decode_format_r :
    decode defaultCatalogOrder 0b000000_01010_01011_01001_00000_100000 = .legal (.add 9 10 11 0) ∧
    decode defaultCatalogOrder 0b000000_01010_01011_01001_11111_100000 = .legal (.add 9 10 11 31) ∧
    decode defaultCatalogOrder 0b000000_01010_01011_01001_00000_100010 = .legal (.sub 9 10 11 0) ∧
    decode defaultCatalogOrder 0b000000_01010_01011_01001_00000_100100 = .legal (.mul 9 10 11 0) ∧
    decode andFirst 0b000000_01010_01011_01001_00000_100100 = .legal (.and 9 10 11 0) ∧
    decode defaultCatalogOrder 0b000000_01010_01011_01001_00000_100101 = .legal (.or 9 10 11 0) ∧
    decode defaultCatalogOrder 0b000000_01010_01011_01001_00000_101010 = .legal (.slt 9 10 11 0) := by decide

/-- Format J and I-BRANCH, bit by bit. -/
theorem test_decode_transfers :
    decode defaultCatalogOrder 0b000010_00000100000000000000001000 = .legal (.j 0x0100008) ∧
    decode defaultCatalogOrder 0b000011_00000100000000000000001000 = .legal (.jal 0x0100008) ∧
    decode defaultCatalogOrder 0b000100_01001_01010_0000000000000011 = .legal (.beq 9 10 3) ∧
    decode defaultCatalogOrder 0b000101_01001_01010_1111111111111110 = .legal (.bne 9 10 0xFFFE) ∧
    decode defaultCatalogOrder 0b010111_01001_01010_0000000000000010 = .legal (.ego 9 10 2) := by decide

/-- Format I of the base set, bit by bit: opcode, rs, rt, imm16. -/
theorem test_decode_format_i_base :
    decode defaultCatalogOrder 0b001000_00000_01001_1111111111111111 = .legal (.addi 9 0 0xFFFF) ∧
    decode defaultCatalogOrder 0b100011_01010_01001_1111111110011100 = .legal (.lw 9 10 0xFF9C) ∧
    decode defaultCatalogOrder 0b101011_01010_01001_0000000000001000 = .legal (.sw 9 10 8) := by decide

/-- Format I of the extended set, bit by bit: op0 is the rt field, op1 the rs field. -/
theorem test_decode_format_i_extended :
    decode defaultCatalogOrder 0b010000_01001_01010_0000000000000010 = .legal (.extract 10 9 2) ∧
    decode defaultCatalogOrder 0b010001_01001_01010_1111111111111110 = .legal (.winst 10 9 0xFFFE) ∧
    decode defaultCatalogOrder 0b010010_01001_01010_0000000000000001 = .legal (.winsight 10 9 1) ∧
    decode defaultCatalogOrder 0b010011_01001_01010_0000000000000001 = .legal (.wattach 10 9 1) ∧
    decode defaultCatalogOrder 0b010100_01001_01010_0000000000000001 = .legal (.wrepress 10 9 1) ∧
    decode defaultCatalogOrder 0b010101_01001_01010_0000000000000010 = .legal (.suppress 10 9 2) ∧
    decode defaultCatalogOrder 0b010110_00000_00000_0000000000001001 = .legal (.ordeal 0 0 9) ∧
    decode defaultCatalogOrder 0b011000_00000_01001_0000000000000000 = .legal (.panic 9 0 0) ∧
    decode defaultCatalogOrder 0b011001_00111_11111_1111111111111111 = .legal (.meltdown 31 7 0xFFFF) := by decide

/-- The illegal words of 95_test_vectors.md 2.1. -/
theorem test_decode_illegal :
    [0x014B4826, 0x014B482B, 0x00000021, 0x00000000, 0x00000040, 0x04000000, 0x7C000000, 0xFFFFFFFF].all
      (fun w => decode defaultCatalogOrder w == .illegal w) = true := by decide

/-- Every field is extracted whatever the format (95_test_vectors.md 2.1, `0x0BFFFFFF`). -/
theorem test_fields_of_a_jump :
    fieldsOf 0x0BFFFFFF = ⟨2, 31, 31, 31, 31, 63, 0xFFFF, 0x3FFFFFF⟩ := by decide

/-- idx and operand vectors of 95_test_vectors.md 2.1. -/
theorem test_decode_records :
    ((decodeRecord defaultCatalogOrder 0x014B4820).map (fun d => (d.idx, d.format, d.ops)) =
      some (0, .r, [9, 10, 11])) ∧
    ((decodeRecord defaultCatalogOrder 0x152AFFFE).map (fun d => (d.idx, d.format, d.ops)) =
      some (9, .iBranch, [9, 10, 65534])) ∧
    ((decodeRecord defaultCatalogOrder 0x8D49FF9C).map (fun d => (d.idx, d.format, d.ops)) =
      some (11, .i, [9, 10, 65436])) ∧
    ((decodeRecord defaultCatalogOrder 0x5D2A0002).map (fun d => (d.idx, d.format, d.ops)) =
      some (20, .iBranch, [9, 10, 2])) ∧
    ((decodeRecord defaultCatalogOrder 0x08100008).map (fun d => (d.idx, d.format, d.ops)) =
      some (6, .j, [0x0100008])) := by decide

/-- The words of 95_test_vectors.md section 3 are the packed words of its assembly. -/
theorem test_encode :
    encode (.sub 12 9 10 0) = 0x012A6022 ∧ encode (.slt 15 10 9 0) = 0x0149782A ∧
    encode (.addi 8 0 0x1001) = 0x20081001 ∧ encode (.sw 31 8 12) = 0xAD1F000C ∧
    encode (.jal 0x010000A) = 0x0C10000A ∧ encode (.beq 8 0 3) = 0x11000003 ∧
    encode (.suppress 10 9 1) = 0x552A0001 ∧ encode (.ego 9 0 0xFFFF) = 0x5D20FFFF ∧
    encode (.extract 10 9 0x63) = 0x412A0063 := by decide

theorem test_decode_table_word :
    decodeTableWord 32 0x014B4820 = some (.add 9 10 11 0) ∧ decodeTableWord 32 0x24 = some (.mul 0 0 0 0) ∧
    decodeTableWord 32 0 = none := by decide

/-! ## Well-formedness: each check, with terms it refuses -/

theorem test_well_formed_reachable :
    (Instr.mul 1 2 3 0).wellFormed defaultCatalogOrder = true ∧
    (Instr.and 1 2 3 0).wellFormed defaultCatalogOrder = false ∧
    (Instr.mul 1 2 3 0).wellFormed andFirst = false ∧ (Instr.and 1 2 3 0).wellFormed andFirst = true ∧
    (Instr.meltdown 1 2 3).wellFormed andFirst = true := by decide

theorem test_well_formed_catalog_order :
    catalogOrderOk defaultCatalogOrder = true ∧ catalogOrderOk andFirst = true ∧
    catalogOrderOk (Mnemonic.all.drop 1) = false ∧ catalogOrderOk (.add :: Mnemonic.all) = false ∧
    catalogOrderOk (.add :: Mnemonic.all.take 22) = false := by decide

theorem test_well_formed_canonical :
    (Instr.add 1 2 3 0).canonical defaultRoles = true ∧ (Instr.add 1 2 3 1).canonical defaultRoles = false ∧
    (Instr.ordeal 0 0 9).canonical defaultRoles = true ∧ (Instr.ordeal 1 0 9).canonical defaultRoles = false ∧
    (Instr.ego 9 1 0).canonical defaultRoles = false ∧ (Instr.panic 9 0 1).canonical defaultRoles = false ∧
    (Instr.panic 9 1 0).canonical defaultRoles = false ∧ (Instr.meltdown 0 0 1).canonical defaultRoles = false ∧
    (Instr.extract 1 2 5).canonical { defaultRoles with extractIndex := .reg .op1 } = false ∧
    (Instr.winst 1 2 5).canonical { defaultRoles with winst := { dest := .op0, src := .op0 } } = false := by decide

theorem test_well_formed_multiplier :
    Multiplier.ok (.rational 3 2) = true ∧ Multiplier.ok (.rational 3 0) = false ∧ Multiplier.ok (.irrational 0) = true := by decide

theorem test_well_formed_program :
    programOk 0x00400000 [(0x00400000, 0x20090001), (0x00400004, 0)] = true ∧
    programOk 0x00400000 [(0x00400000, 0x20090001), (0x00400008, 0)] = false ∧
    programOk 0x00400000 [(0x00400004, 0x20090001)] = false ∧
    programOk 0xFFFFFFFC [(0xFFFFFFFC, 0x20090001)] = false := by decide

theorem test_well_formed_launch :
    progLaunch.wellFormed = true ∧
    ({ testLaunch with resetPc := 0x00400002 } : Launch).wellFormed = false ∧
    ({ testLaunch with imem := [(0, 0)] } : Launch).wellFormed = false ∧
    ({ testLaunch with catalogOrder := [] } : Launch).wellFormed = false ∧
    ({ testLaunch with favMult := Vector.replicate 5 (.rational 1 0) } : Launch).wellFormed = false ∧
    ({ testLaunch with punMult := Vector.replicate 5 (.rational 1 0) } : Launch).wellFormed = false := by decide

/-! ## Arithmetic and logic: 95_test_vectors.md 2.2 and 2.3 -/

/-- The outcomes of add: `some` sum or `none` for a fault. -/
theorem test_add_vectors :
    [((0x0000000A, 0x00000007), some 0x00000011), ((0x7FFFFFFF, 0x00000001), none),
     ((0x80000000, 0xFFFFFFFF), none), ((0x7FFFFFFF, 0x80000000), some 0xFFFFFFFF),
     ((0x40000000, 0x40000000), none), ((0xC0000000, 0xC0000000), some 0x80000000),
     ((0xBFFFFFFF, 0xBFFFFFFF), none), ((0, 0), some 0)].all
      (fun c => (if aluOvf .add c.1.1 c.1.2 then none else some (aluResult .add c.1.1 c.1.2)) == c.2) = true := by
  decide

/-- The outcomes of sub. -/
theorem test_sub_vectors :
    [((0x00000005, 0x00000007), some 0xFFFFFFFE), ((0x80000000, 0x00000001), none),
     ((0x7FFFFFFF, 0xFFFFFFFF), none), ((0x00000000, 0x80000000), none),
     ((0xFFFFFFFF, 0x80000000), some 0x7FFFFFFF), ((0x80000000, 0x80000000), some 0),
     ((0x00000007, 0x00000007), some 0), ((0x7FFFFFFF, 0x7FFFFFFF), some 0)].all
      (fun c => (if aluOvf .sub c.1.1 c.1.2 then none else some (aluResult .sub c.1.1 c.1.2)) == c.2) = true := by
  decide

/-- The outcomes of addi. -/
theorem test_addi_vectors :
    [((0x00000000, 0xFFFF), some 0xFFFFFFFF), ((0x00000000, 0x7FFF), some 0x00007FFF),
     ((0x00000000, 0x8000), some 0xFFFF8000), ((0x7FFFFFFF, 0x0001), none), ((0x80000000, 0xFFFF), none),
     ((0x7FFFFFFF, 0xFFFF), some 0x7FFFFFFE), ((0x7FFF8000, 0x7FFF), some 0x7FFFFFFF),
     ((0x7FFF8001, 0x7FFF), none), ((0x80007FFF, 0x8000), none), ((0x80008000, 0x8000), some 0x80000000)].all
      (fun c => regOf 9 (exec (.addi 9 10 c.1.2) (st [(10, c.1.1)])) == c.2) = true := by decide

/-- The results of mul. -/
theorem test_mul_vectors :
    [((0x80000000, 0xFFFFFFFF), 0x80000000), ((0x00010000, 0x00010000), 0), ((0xFFFFFFFD, 0x00000007), 0xFFFFFFEB),
     ((0x7FFFFFFF, 0x7FFFFFFF), 1), ((0xFFFFFFFF, 0xFFFFFFFF), 1), ((0x00003039, 0), 0),
     ((0x80000000, 0x80000000), 0), ((0x80000000, 2), 0), ((0xF0F0F0F0, 0x0FF00FF0), 0xF0FFF100)].all
      (fun c => aluResult .mul c.1.1 c.1.2 == c.2) = true := by decide

/-- The results of slt. -/
theorem test_slt_vectors :
    [((0xFFFFFFFF, 1), 1), ((1, 0xFFFFFFFF), 0), ((5, 5), 0), ((0x80000000, 0x7FFFFFFF), 1),
     ((0x7FFFFFFF, 0x80000000), 0), ((0, 0), 0), ((0x80000000, 0x80000001), 1)].all
      (fun c => aluResult .slt c.1.1 c.1.2 == c.2) = true := by decide

/-- S1: `add $t1,$t2,$t3`. -/
theorem test_add : regOf 9 (exec (.add 9 10 11 0) (st [(10, 0xA), (11, 7)])) = some 0x11 := by decide

/-- S2: the fault names the pc; nothing else of the state is in it. -/
theorem test_add_faults :
    faultOf (exec (.add 9 10 11 0) (st [(10, 0x7FFFFFFF), (11, 1)])) =
      some (.arithmeticOverflow { pc := 0x00400000, word := none, detector := Detector.reset }) := by decide

/-- `add $0,$10,$11` still faults (R22). -/
theorem test_add_into_zero_faults :
    faultOf (exec (.add 0 10 11 0) (st [(10, 0x7FFFFFFF), (11, 1)])) =
      some (.arithmeticOverflow { pc := 0x00400000, word := none, detector := Detector.reset }) := by decide

/-- The minuend is `x[rs]` (95_test_vectors.md P1: 10 - (-3)). -/
theorem test_sub : regOf 12 (exec (.sub 12 9 10 0) (st [(9, 10), (10, 0xFFFFFFFD)])) = some 13 := by decide

/-- The word `0x014B4824` under the default order. -/
theorem test_mul_step :
    regOf 9 (step ((st [(10, 0xF0F0F0F0), (11, 0x0FF00FF0)]).withFetchWord 32 0x014B4824)) = some 0xF0FFF100 := by
  decide

/-- The same word when `CATALOG_ORDER` puts `and` first. -/
theorem test_and_step :
    regOf 9 (step ((withRegs { testLaunch with catalogOrder := andFirst }
      [(10, 0xF0F0F0F0), (11, 0x0FF00FF0)]).withFetchWord 32 0x014B4824)) = some 0x00F000F0 := by decide

theorem test_or : regOf 9 (exec (.or 9 10 11 0) (st [(10, 0xF0F0F0F0), (11, 0x0FF00FF0)])) = some 0xFFF0FFF0 := by
  decide

/-- `slt $15,$10,$9` of 95_test_vectors.md P1. -/
theorem test_slt : regOf 15 (exec (.slt 15 10 9 0) (st [(9, 10), (10, 0xFFFFFFFD)])) = some 1 := by decide

/-! ## Control transfer: 95_test_vectors.md 2.4 -/

theorem test_branch_targets :
    [((0x00400008, 0x0003), 0x00400018), ((0x00400010, 0xFFFE), 0x0040000C), ((0x00400000, 0xFFFF), 0x00400000),
     ((0x00400000, 0x0000), 0x00400004), ((0x00400000, 0x7FFF), 0x00420000), ((0x00400000, 0x8000), 0x003E0004),
     ((0xFFFFFFFC, 0x0000), 0x00000000), ((0x00000000, 0xFFFE), 0xFFFFFFFC)].all
      (fun c => branchTarget c.1.1 c.1.2 == c.2) = true := by decide

theorem test_jump_targets :
    [((0x00400000, 0x0100008), 0x00400020), ((0x00400004, 0x0100001), 0x00400004),
     ((0x0FFFFFFC, 0x0000000), 0x10000000), ((0x0FFFFFFC, 0x3FFFFFF), 0x1FFFFFFC),
     ((0x10000000, 0x3FFFFFF), 0x1FFFFFFC), ((0xFFFFFFFC, 0x0000001), 0x00000004)].all
      (fun c => jumpTarget c.1.1 c.1.2 == c.2) = true := by decide

theorem test_j : pcOf (exec (.j 0) ((st []).setPc 0x0FFFFFFC)) = some 0x10000000 := by decide

theorem test_jal_links : regOf 31 (exec (.jal 0x3FFFFFF) ((st []).setPc 0x0FFFFFFC)) = some 0x10000000 := by decide

theorem test_beq_taken :
    pcOf (exec (.beq 9 10 3) ((st [(9, 5), (10, 5)]).setPc 0x00400008)) = some 0x00400018 := by decide

theorem test_beq_not_taken :
    pcOf (exec (.beq 9 10 3) ((st [(9, 5), (10, 6)]).setPc 0x00400008)) = some 0x0040000C := by decide

theorem test_bne_taken :
    pcOf (exec (.bne 9 10 3) ((st [(10, 0xFFFFFFFF)]).setPc 0x00400008)) = some 0x00400018 := by decide

theorem test_bne_not_taken :
    pcOf (exec (.bne 9 10 3) ((st [(9, 5), (10, 5)]).setPc 0x00400008)) = some 0x0040000C := by decide

/-! ## Loads and stores: 95_test_vectors.md 2.5 -/

/-- The base is overwritten after use. -/
theorem test_lw :
    regOf 10 (exec (.lw 10 10 0) (stMem [(10, 0x10010000)] 0x10010000 0xDEADBEEF)) = some 0xDEADBEEF := by decide

theorem test_lw_misaligned :
    faultOf (exec (.lw 9 10 2) (st [(10, 0x10010000)])) =
      some (.addressError { pc := 0x00400000, word := none, detector := Detector.reset } 0x10010002 .load) := by decide

theorem test_sw :
    wordOf 0x10010008 (exec (.sw 9 10 8) (st [(9, 0xDEADBEEF), (10, 0x10010000)])) = some 0xDEADBEEF := by decide

theorem test_sw_out_of_range :
    faultOf (exec (.sw 9 10 0) (st [(10, 0x10020000)])) =
      some (.addressError { pc := 0x00400000, word := none, detector := Detector.reset } 0x10020000 .store) := by decide

/-- `lw $9,4($10)` with `x[10] = 0xFFFFFFFC`: the effective address wraps. -/
theorem test_effective_address_wraps : effectiveAddress 0xFFFFFFFC 4 = 0 ∧ effectiveAddress 0x10010064 0xFF9C =
    0x10010000 := by decide

/-- Byte order (R42): the least significant byte is lowest in memory when `BYTE_ORDER` is little, highest when big. -/
theorem test_byte_order :
    Memory.writeWord .little [] 8 0xDEADBE00 = [(9, 0xBE), (10, 0xAD), (11, 0xDE)] ∧
    Memory.writeWord .big [] 8 0xDEADBE00 = [(8, 0xDE), (9, 0xAD), (10, 0xBE)] := by decide

/-- Writing what an unlisted address reads as removes the entries. -/
theorem test_memory_canonical :
    Memory.writeWord .little (Memory.writeWord .little [] 8 0xDEADBEEF) 8 0 = [] ∧
    Memory.wf [(8, 1), (7, 2)] = false ∧ Memory.wf [(8, 0)] = false ∧ Memory.wf [(2 ^ 32, 1)] = false := by decide

/-! ## The extended instructions: 95_test_vectors.md 2.6 -/

/-- `FAV_MULT[2] = 1.5`, draw 3. -/
theorem test_extract : (extractWith 3 10 9 2 (st [(9, 100)])).readReg 10 = 107 := by decide

/-- imm 99 is clamped to 4: `FAV_MULT[4] = 2`, draw 0. -/
theorem test_extract_clamps : (extractWith 0 10 9 99 (st [(9, 100)])).readReg 10 = 103 := by decide

theorem test_winst : regOf 10 (exec (.winst 10 9 0xFFFE) (st [(9, 5)])) = some 3 := by decide

theorem test_winst_line :
    linesOf (exec (.winst 10 9 0xFFFE) (st [(9, 5)])) = some [.stated .winst [10, 0xFFFFFFFE]] := by decide

theorem test_winsight : regOf 10 (exec (.winsight 10 9 1) (st [(9, 5), (10, 77)])) = some 6 := by decide

theorem test_wattach : regOf 10 (exec (.wattach 10 9 1) (st [(9, 5), (10, 77)])) = some 6 := by decide

/-- No fault at the top of the range. -/
theorem test_wrepress : regOf 10 (exec (.wrepress 10 9 1) (st [(9, 0x7FFFFFFF)])) = some 0x80000000 := by decide

/-- Equality does not win: `PUN_MULT[1] = 2`. -/
theorem test_suppress_equal : regOf 2 (exec (.suppress 10 9 1) (st [(10, 20), (9, 10), (2, 7)])) = some 0 := by decide

theorem test_suppress_greater : regOf 2 (exec (.suppress 10 9 1) (st [(10, 21), (9, 10)])) = some 1 := by decide

/-- imm 9 is clamped to 3: `SEVERITY[3] = 40`, draw 2, no floor. -/
theorem test_ordeal : (ordealWith 2 0 0 9 (st [(10, 15)])).readReg 10 = 0xFFFFFFE7 := by decide

/-- 65535 clamps to 4 when `IDX_SIGNED` is false: `BONUS[4] = 9`. -/
theorem test_ego : regOf 9 (exec (.ego 9 0 0xFFFF) (st [(9, 1)])) = some 10 := by decide

/-- -1 clamps to 0 when `IDX_SIGNED` is true: `BONUS[0] = 5`. -/
theorem test_ego_signed_index :
    regOf 9 (exec (.ego 9 0 0xFFFF) (withRegs { testLaunch with idxSigned := true } [(9, 1)])) = some 6 := by decide

theorem test_panic : regOf 9 (exec (.panic 9 0 0) (st [(9, 0x1234)])) = some 0 := by decide

theorem test_panic_line : linesOf (exec (.panic 9 0 0) (st [(9, 0x1234)])) = some [.stated .panic [9]] := by decide

/-- The registers and the memory of the meltdown vectors. -/
def meltState (x28 counter : Word) : State :=
  stMem [(8, 25), (9, 10), (10, 3), (12, 0xFFFFFFFC), (13, 11), (14, 100), (15, 9), (28, x28)] 0x10010004 counter

/-- The band after meltdown, with a counter access that fails (misaligned): memory and outcome. -/
theorem test_meltdown_band :
    bandRegs.map (fun r => regOf r (exec (.meltdown 0 0 0) (meltState 0x10010001 9))) =
      [some 15, some 0, some 0, some 0, some 0, some 1, some 90, some 0] := by decide

/-- The counter goes from 9 to 10 and stays at the ceiling 10; an access that fails leaves it. -/
theorem test_meltdown_counter :
    wordOf 0x10010004 (exec (.meltdown 0 0 0) (meltState 0x10010000 9)) = some 10 ∧
    wordOf 0x10010004 (exec (.meltdown 0 0 0) (meltState 0x10010000 10)) = some 10 ∧
    wordOf 0x10010004 (exec (.meltdown 0 0 0) (meltState 0x10010001 9)) = some 9 := by decide

/-! ## Reset, the step and its ends -/

theorem test_reset :
    State.reset.pc = 0x00400000 ∧ (∀ r : RegNum, State.reset.readReg r = 0) ∧ State.reset.mem = [] ∧
    State.reset.detector = Detector.reset ∧ State.reset.fetch = none := by decide

/-- With no program loaded, `END_PC` is `RESET_PC` and the run is finished (R204, log 10). -/
theorem test_step_from_reset : faultOf (step State.reset) = some (.finished 0x00400000) := by decide

theorem test_step_runs_a_placed_word :
    regOf 9 (step (State.reset.withFetchWord 32 0x2009FFFF)) = some 0xFFFFFFFF := by decide

/-- 95_test_vectors.md P6. -/
theorem test_illegal_word :
    faultOf (step (prog 0x00400004)) =
      some (.illegalInstruction { pc := 0x00400004, word := some 0, detector := Detector.reset } 0) := by decide

theorem test_finished_and_stuck :
    faultOf (step (prog 0x00400008)) = some (.finished 0x00400008) ∧
    faultOf (step (prog 0x00400018)) = some (.stuck 0x00400018) := by decide

/-! ## The hazard detector: 95_test_vectors.md 2.7 -/

theorem test_hazard_explicit_reads :
    hazardOf (after (.addi 9 0 5) (.add 10 9 9 0)) = some (true, true, true) ∧
    hazardOf (after (.addi 9 0 5) (.add 10 11 9 0)) = some (true, false, true) ∧
    hazardOf (after (.addi 9 0 5) (.addi 9 10 1)) = some (false, false, false) ∧
    hazardOf (after (.lw 9 8 0) (.sw 9 8 4)) = some (true, false, true) ∧
    hazardOf (after (.sw 9 8 4) (.lw 9 8 4)) = some (false, false, false) := by decide

theorem test_hazard_implicit_sets :
    hazardOf (after (.jal 0) (.sw 31 29 0)) = some (true, false, true) ∧
    hazardOf (after (.add 0 9 9 0) (.add 10 0 0 0)) = some (false, false, false) ∧
    hazardOf (after (.meltdown 0 0 0) (.add 1 8 16 0)) = some (true, true, false) ∧
    hazardOf (after (.addi 28 0 4) (.meltdown 0 0 0)) = some (true, false, false) ∧
    hazardOf (after (.ordeal 0 0 0) (.beq 15 0 1)) = some (true, true, false) := by decide

/-- An add that overflows drives the detector: hazards through register 9, and the latch holds its write set (R207 to
R209). An illegal word has empty sets. -/
theorem test_hazard_of_a_faulting_step :
    let s := { st [(9, 0x7FFFFFFF)] with detector := ⟨0x200, false, false, false⟩ }
    (hazardOf (step (s.withFetchWord 32 0x01294020)) = some (true, true, true) ∧
      latchOf (step (s.withFetchWord 32 0x01294020)) = some 0x100) ∧
    (hazardOf (step (s.withFetchWord 32 0x01290000)) = some (false, false, false) ∧
      latchOf (step (s.withFetchWord 32 0x01290000)) = some 0) := by decide

/-- The first step after reset reports no hazard. -/
theorem test_hazard_after_reset :
    hazardOf (step ((st []).withFetchWord 32 0x012A5820)) = some (false, false, false) := by decide

/-! ## Witnesses: states and operands that meet the hypotheses of the statements -/

theorem test_witness_DecodeOfEncodeIsTheInstruction :
    catalogOrderOk defaultCatalogOrder = true ∧ (Instr.mul 31 0 31 31).wellFormed defaultCatalogOrder = true ∧
    catalogOrderOk andFirst = true ∧ (Instr.and 31 0 31 31).wellFormed andFirst = true := by decide

theorem test_witness_EncodeOfDecodeIsTheWord :
    decode defaultCatalogOrder 0x64FFFFFF = .legal (.meltdown 31 7 0xFFFF) := by decide

/-- An opcode at each end of its range, and a funct below, at and above the shared one. -/
theorem test_witness_OpcodeAndFunctMapsSelectTheRow :
    catalogOrderOk andFirst = true ∧ (0x04000000 : Word).toNat / 2 ^ 26 ≠ 0 ∧ (0xFFFFFFFF : Word).toNat / 2 ^ 26 ≠ 0 ∧
    (0x00000023 : Word).toNat / 2 ^ 26 = 0 ∧ (0x00000023 : Word).toNat % 64 ≠ 0b100100 ∧
    (0x00000025 : Word).toNat % 64 ≠ 0b100100 ∧ (0x03FFFFE4 : Word).toNat / 2 ^ 26 = 0 ∧
    (0x03FFFFE4 : Word).toNat % 64 = 0b100100 := by decide

theorem test_witness_FirstRegisteredMatchWins :
    (0x014B4824 : Word) &&& Mnemonic.mul.mask = Mnemonic.mul.pattern ∧
    (0x014B4824 : Word) &&& Mnemonic.and.mask = Mnemonic.and.pattern ∧
    catalogOrderOk defaultCatalogOrder = true ∧ catalogOrderOk andFirst = true ∧
    (0x014B4825 : Word) &&& Mnemonic.mul.mask ≠ Mnemonic.mul.pattern := by decide

theorem test_witness_CollisionReachesOneRowOnly :
    catalogOrderOk (Mnemonic.all.drop 1 ++ [Mnemonic.add]) = true ∧
    (Mnemonic.all.drop 1 ++ [Mnemonic.add]).idxOf Mnemonic.mul < (Mnemonic.all.drop 1 ++ [Mnemonic.add]).idxOf Mnemonic.and ∧
    catalogOrderOk andFirst = true ∧ andFirst.idxOf Mnemonic.and < andFirst.idxOf Mnemonic.mul ∧
    (0x03FFFFE4 : Word) &&& 0xFC00003F = 0x00000024 := by decide

/-- Words with a don't-care that reaches down to bit 0, and with opcode 0 and one funct. -/
theorem test_witness_DontCareBitsAreIgnored :
    (st []).launch.roles = defaultRoles ∧ (0x64FFFFFF : Word) &&& 0xFC000000 = 0x64000000 &&& 0xFC000000 ∧
    (0x64FFFFFF : Word) &&& 0xFC000000 ≠ 0 ∧ (0x014B4FE0 : Word) &&& 0xFC000000 = 0x00000020 &&& 0xFC000000 ∧
    (0x014B4FE0 : Word) &&& 0xFC000000 = 0 ∧ (0x014B4FE0 : Word) &&& 0x3F = 0x00000020 &&& 0x3F := by decide

theorem test_witness_OperandVectorsReadTheFields :
    dispatch defaultCatalogOrder 0x014B4826 = none ∧ dispatch defaultCatalogOrder 0x5D2A0002 = some .ego ∧
    dispatch defaultCatalogOrder 0x08100008 = some .j := by decide

/-- A word that completes, one that faults, one that is illegal. -/
theorem test_witness_StepRunsTheDecodedInstruction :
    ((prog 0x00400000).fetch = some 0x20090001 ∧
      decode progLaunch.catalogOrder 0x20090001 = .legal (.addi 9 0 1) ∧
      ∃ t, exec (.addi 9 0 1) (prog 0x00400000) = .next t) ∧
    (((st [(9, 0x7FFFFFFF)]).withFetchWord 32 0x01294820).fetch = some 0x01294820 ∧
      decode testLaunch.catalogOrder 0x01294820 = .legal (.add 9 9 9 0) ∧
      ∃ f, exec (.add 9 9 9 0) ((st [(9, 0x7FFFFFFF)]).withFetchWord 32 0x01294820) = .fault f) ∧
    ((prog 0x00400004).fetch = some 0 ∧ decode progLaunch.catalogOrder 0 = .illegal 0) :=
  ⟨⟨by decide, by decide, exists_next (by decide)⟩,
    ⟨by decide, by decide, _, exists_fault (f := .arithmeticOverflow
      { pc := 0x00400000, word := some 0x01294820, detector := Detector.reset }) (by decide)⟩, by decide, by decide⟩

theorem test_witness_PlacedWordIsDecodedNext :
    catalogOrderOk State.reset.launch.catalogOrder = true ∧
    (Instr.lw 31 31 0xFFFF).wellFormed State.reset.launch.catalogOrder = true ∧
    (0 : Nat) ≠ State.reset.pc.toNat := by decide

/-- Each of the outcomes: next, the three failures, finished, stuck. -/
theorem test_witness_StepHasOneOfTheListedOutcomes :
    (∃ t, step (prog 0x00400000) = .next t) ∧ Fails (prog 0x00400004) ∧
    Fails ((st [(9, 0x7FFFFFFF)]).withFetchWord 32 0x01294820) ∧ Fails ((st []).withFetchWord 32 0x8C000000) ∧
    Finished (prog 0x00400008) ∧ Stuck (prog 0x0040000C) := by
  refine ⟨exists_next (by decide), ?_, ?_, ?_, ?_, ?_⟩
  · exact ⟨.illegalInstruction { pc := 0x00400004, word := some 0, detector := Detector.reset } 0, .illegalInstruction,
      exists_fault (by decide), rfl⟩
  · exact ⟨.arithmeticOverflow { pc := 0x00400000, word := some 0x01294820, detector := ⟨0x200, false, false, false⟩ },
      .arithmeticOverflow, exists_fault (by decide), rfl⟩
  · exact ⟨.addressError { pc := 0x00400000, word := some 0x8C000000, detector := Detector.reset } 0 .load,
      .addressError, exists_fault (by decide), rfl⟩
  · unfold Finished; decide
  · unfold Stuck; decide

/-- A program of two words: at its first and last word, at its end, just past it, before it, and misaligned in it. -/
theorem test_witness_RunEndsAtEndPcOrIsStuckOutside :
    progLaunch.resetPc.toNat % 4 = 0 ∧ programOk progLaunch.resetPc progLaunch.imem = true ∧
    progLaunch.endPc = 0x00400008 ∧
    [0x00400000, 0x00400004].all (fun a => (prog a).fetch.isSome) = true ∧
    (0x003FFFFF : Word) ≠ progLaunch.endPc ∧ (0x00400009 : Word) ≠ progLaunch.endPc ∧
    ¬ (progLaunch.resetPc.toNat ≤ (0x003FFFFF : Word).toNat) ∧
    ¬ ((0x00400009 : Word).toNat < progLaunch.endPc.toNat) ∧ ¬ ((0x00400002 : Word).toNat % 4 = 0) := by decide

/-- The largest sum that fits and the smallest that does not. -/
theorem test_witness_AddWritesTheSumOrOverflows :
    fits32 (((st [(10, 0x7FFFFFFE), (11, 1)]).readReg 10).toInt + ((st [(10, 0x7FFFFFFE), (11, 1)]).readReg 11).toInt) ∧
    ¬ fits32 (((st [(10, 0x7FFFFFFF), (11, 1)]).readReg 10).toInt +
      ((st [(10, 0x7FFFFFFF), (11, 1)]).readReg 11).toInt) := by unfold fits32; decide

theorem test_witness_SubWritesTheDifferenceOrOverflows :
    fits32 (((st [(10, 0xFFFFFFFF), (11, 0x80000000)]).readReg 10).toInt -
      ((st [(10, 0xFFFFFFFF), (11, 0x80000000)]).readReg 11).toInt) ∧
    ¬ fits32 (((st [(11, 0x80000000)]).readReg 10).toInt - ((st [(11, 0x80000000)]).readReg 11).toInt) := by
  unfold fits32; decide

theorem test_witness_AddiWritesTheSumOrOverflows :
    fits32 (((st [(10, 0x80008000)]).readReg 10).toInt + (0x8000 : BitVec 16).toInt) ∧
    ¬ fits32 (((st [(10, 0x80007FFF)]).readReg 10).toInt + (0x8000 : BitVec 16).toInt) := by unfold fits32; decide

theorem test_witness_SltComparesSignedValues :
    ((st [(10, 0x80000000)]).readReg 10).toInt < ((st [(10, 0x80000000)]).readReg 11).toInt ∧
    ((st []).readReg 11).toInt ≤ ((st []).readReg 10).toInt := by decide

theorem test_witness_RegisterZeroReadsZeroAndDiscardsWrites :
    ¬ fits32 (((st [(10, 0x7FFFFFFF), (11, 1)]).readReg 10).toInt +
      ((st [(10, 0x7FFFFFFF), (11, 1)]).readReg 11).toInt) ∧
    (st [(10, 0x10010000)]).accessible (effectiveAddress ((st [(10, 0x10010000)]).readReg 10) 0) .load = true ∧
    (st [(10, 0x10010000)]).accessible (effectiveAddress ((st [(10, 0x10010000)]).readReg 10) 1) .load = false ∧
    (st []).accessible (effectiveAddress ((st []).readReg 10) 0) .load = false := by unfold fits32; decide

/-- Each clause: a jump, a branch taken and one not taken of either kind, and another instruction. -/
theorem test_witness_PcUnitGivesTheNextPc :
    (∃ t, exec (.j 0x3FFFFFF) (st []) = .next t) ∧ (∃ t, exec (.jal 0) (st []) = .next t) ∧
    (∃ t, exec (.beq 0 0 0x8000) (st []) = .next t) ∧ (∃ t, exec (.bne 0 9 0x7FFF) (st [(9, 1)]) = .next t) ∧
    (∃ t, exec (.or 0 0 0 0) (st []) = .next t) ∧ (st []).readReg 0 = (st []).readReg 0 ∧
    (st [(9, 1)]).readReg 0 ≠ (st [(9, 1)]).readReg 9 ∧
    (Instr.or 0 0 0 0).mnemonic ∉ [Mnemonic.j, .jal, .beq, .bne] ∧ (st []).pc.toNat % 4 = 0 :=
  ⟨exists_next (by decide), exists_next (by decide), exists_next (by decide), exists_next (by decide),
    exists_next (by decide), rfl, by decide, by decide, by decide⟩

/-- The first and the last valid word, just outside on either side, and misaligned. -/
theorem test_witness_LwLoadsTheWordOrRaisesAddressError :
    (0x10010000 : Word).toNat % 4 = 0 ∧ testLaunch.addrOk 0x10010000 .load = true ∧
    (0x1001FFFC : Word).toNat % 4 = 0 ∧ testLaunch.addrOk 0x1001FFFC .load = true ∧
    testLaunch.addrOk 0x1000FFFC .load = false ∧ testLaunch.addrOk 0x10020000 .load = false ∧
    (0x10010002 : Word).toNat % 4 ≠ 0 ∧
    effectiveAddress ((st [(10, 0x10010000)]).readReg 10) 0 = 0x10010000 ∧
    effectiveAddress ((st [(10, 0x10010000)]).readReg 10) 2 = 0x10010002 ∧
    effectiveAddress ((st [(10, 0x10020000)]).readReg 10) 0 = 0x10020000 := by decide

theorem test_witness_SwStoresTheWordOrRaisesAddressError :
    (st [(10, 0x1001FFFC)]).mem.wf = true ∧
    effectiveAddress ((st [(10, 0x1001FFFC)]).readReg 10) 0 = 0x1001FFFC ∧
    testLaunch.addrOk 0x1001FFFC .store = true ∧ testLaunch.addrOk 0x1000FFFC .store = false ∧
    (0x1001FFFD : Word).toNat % 4 ≠ 0 := by decide

theorem test_witness_MemReadReturnsTheWordLastWritten :
    (st []).mem.wf = true ∧ (∃ t, memWrite (st []) 0x10010000 7 = .ok t) ∧
    ∃ e, memWrite (st []) 0x10010001 7 = .error e := by
  refine ⟨by decide, ?_, ?_⟩
  · rcases memWrite_cases (st []) 0x10010000 7 with ⟨_, e⟩ | ⟨h, _⟩
    · exact ⟨_, e⟩
    · exact absurd h (by decide)
  · rcases memWrite_cases (st []) 0x10010001 7 with ⟨h, _⟩ | ⟨_, e⟩
    · exact absurd h (by decide)
    · exact ⟨_, e⟩

/-- sw and meltdown that store, seen from the first and the last byte of the word and from just outside it. -/
theorem test_witness_OnlySwAndMeltdownChangeMemory :
    (meltState 0x10010000 9).mem.wf = true ∧ (∃ t, exec (.meltdown 0 0 0) (meltState 0x10010000 9) = .next t) ∧
    (∃ t, exec (.sw 9 28 0) (meltState 0x10010000 9) = .next t) ∧
    (∃ t, exec (.lw 9 28 0) (meltState 0x10010000 9) = .next t) ∧
    counterAddress (meltState 0x10010000 9) = 0x10010004 ∧
    wordOf 0x10010008 (exec (.sw 9 28 4) (meltState 0x10010000 9)) = some 0 ∧
    wordOf 0x10010004 (exec (.sw 9 28 4) (meltState 0x10010000 9)) = some 10 :=
  ⟨by decide, exists_next (by decide), exists_next (by decide), exists_next (by decide), by decide, by decide, by decide⟩

/-- The smallest immediate that is clamped to the last entry, and the largest. -/
theorem test_witness_IndicesAreClamped :
    (0 : Int) ≤ 4 ∧ (0 : Int) ≤ 3 ∧ (st []).launch.idxSigned = false ∧ (st []).launch.roles = defaultRoles ∧
    4 ≤ (4 : BitVec 16).toNat ∧ 4 ≤ (0xFFFF : BitVec 16).toNat := by decide

/-- Products at the edges of binary32: a significand of 24 bits and one of 25, the largest exponent and one past it, the
smallest subnormal and half of it. -/
theorem test_exactly_representable :
    (isBinary32 20000000 1 = true ∧ isBinary32 (2 ^ 24) 1 = true) ∧
    (isBinary32 (2 ^ 24 - 1) 2 = true ∧ isBinary32 (2 ^ 24 + 1) 1 = false) ∧
    (isBinary32 (2 ^ 127) 1 = true ∧ isBinary32 (2 ^ 128) 1 = false) ∧
    (isBinary32 1 (2 ^ 149) = true ∧ isBinary32 1 (2 ^ 150) = false) := by decide

/-- `floor(1.5 × 4)` (the example of R155), thirds, a gain above 2^24, and an irrational multiplier. -/
theorem test_exactFloor :
    Multiplier.exactFloor (.rational 3 2) 4 = some 6 ∧
    (Multiplier.exactFloor (.rational 1 3) 1 = none ∧ Multiplier.exactFloor (.rational 1 3) 3 = some 1) ∧
    Multiplier.exactFloor (.rational 2500000 1) 8 = some 20000000 ∧
    Multiplier.exactFloor (.irrational 0) 1 = none := by decide

/-- An integer product of either sign, a fractional one, and an irrational multiplier with and without 0. -/
theorem test_exactInteger :
    Multiplier.exactInteger (.rational 3 2) (-4) = some (-6) ∧ Multiplier.exactInteger (.rational 3 2) 3 = none ∧
    Multiplier.exactInteger (.irrational 0) 0 = some 0 ∧ Multiplier.exactInteger (.irrational 0) 1 = none := by decide

/-- A multiplier with a fraction, and the least and the largest binary32 numbers above 0 as products. -/
theorem test_witness_ExtractAddsTheFlooredGain :
    (testLaunch.favMult[(2 : Fin 5)].denotes (3 / 2) ∧ isBinary32Real (3 / 2 * (1 + (4 : Fin 10).val))) ∧
    (Multiplier.denotes (.rational 1 (2 ^ 149)) (1 / 2 ^ 149) ∧
      isBinary32Real (1 / 2 ^ 149 * (1 + (0 : Fin 10).val))) ∧
    (Multiplier.denotes (.rational ((2 ^ 24 - 1) * 2 ^ 104) 1) ((2 ^ 24 - 1) * 2 ^ 104) ∧
      isBinary32Real ((2 ^ 24 - 1) * 2 ^ 104 * (1 + (0 : Fin 10).val))) :=
  ⟨⟨⟨by decide, by norm_num⟩, 15, 0, 1, by decide, by decide, by decide, by norm_num⟩,
    ⟨⟨by decide, by norm_num⟩, 1, 0, 149, by decide, by decide, by decide, by norm_num⟩,
    ⟨⟨by decide, by norm_num⟩, 2 ^ 24 - 1, 104, 0, by decide, by decide, by decide, by norm_num⟩⟩

/-- An abnormality power of either sign, and an irrational multiplier with an abnormality power of 0. -/
theorem test_witness_SuppressWritesTheVerdictIntoRegisterTwo :
    (testLaunch.punMult[(1 : Fin 5)].denotes 2 ∧ ((10 : Word).toInt : ℝ) * 2 = (20 : Int) ∧
      ((0x80000000 : Word).toInt : ℝ) * 2 = (-4294967296 : Int)) ∧
    (testLaunch.punMult[(3 : Fin 5)].denotes (√2) ∧ ((0 : Word).toInt : ℝ) * √2 = (0 : Int)) := by
  have h10 : (10 : Word).toInt = 10 := by decide
  have hmin : (0x80000000 : Word).toInt = -2147483648 := by decide
  have h0 : (0 : Word).toInt = 0 := by decide
  refine ⟨⟨⟨by decide, by norm_num⟩, ?_, ?_⟩, ⟨Real.sqrt_nonneg 2, irrational_sqrt_two⟩, ?_⟩
  · rw [h10]; norm_num
  · rw [hmin]; norm_num
  · rw [h0]; norm_num

/-- Band registers at both ends and inside, the corner outside the range, a counter that can be reached, at the ceiling
and below, and one that cannot. -/
theorem test_witness_MeltdownPenalisesTheBandAndCounts :
    (meltState 0x10010000 9).mem.wf = true ∧
    fits32 (((meltState 0x10010000 9).readReg 8).toInt - 10) ∧
    fits32 (((meltState 0x10010000 9).readReg 15).toInt - 10) ∧
    ((meltState 0x10010000 9).readReg 28 + 4).toNat % 4 = 0 ∧
    testLaunch.addrOk ((meltState 0x10010000 9).readReg 28 + 4) .load = true ∧
    testLaunch.addrOk ((meltState 0x10010000 9).readReg 28 + 4) .store = true ∧
    fits32 (((meltState 0x10010000 9).mem.readWord .little 0x10010004).toInt + 1) ∧
    ((meltState 0x10010001 9).readReg 28 + 4).toNat % 4 ≠ 0 ∧
    testLaunch.addrOk ((meltState 0 9).readReg 28 + 4) .load = false := by unfold fits32; decide

/-- One instruction of each kind: it draws, it always writes a line, it may write one, it never does. -/
theorem test_witness_DrawsAndLinesAreCounted :
    (∃ t, exec (.extract 10 9 2) (st []) = .next t) ∧ (∃ t, exec (.panic 9 0 0) (st []) = .next t) ∧
    (∃ t, exec (.ego 9 0 0) (st []) = .next t) ∧ (∃ t, exec (.j 0) (st []) = .next t) :=
  ⟨exists_next (by decide), exists_next (by decide), exists_next (by decide), exists_next (by decide)⟩

theorem test_witness_OnlyTheListedInstructionsFault :
    faultOf (exec (.addi 9 9 1) (st [(9, 0x7FFFFFFF)])) =
      some (.arithmeticOverflow { pc := 0x00400000, word := none, detector := Detector.reset }) ∧
    faultOf (exec (.lw 9 0 0) (st [])) =
      some (.addressError { pc := 0x00400000, word := none, detector := Detector.reset } 0 .load) ∧
    faultOf (exec (.sw 9 0 0) (st [])) =
      some (.addressError { pc := 0x00400000, word := none, detector := Detector.reset } 0 .store) ∧
    (prog 0x00400004).fetch = some 0 ∧
    (∀ m ∈ (prog 0x00400004).launch.catalogOrder, (0 : Word) &&& m.mask ≠ m.pattern) := by decide

/-- A word that completes, one that faults, an illegal one; an ordeal and a meltdown whose reads are all implicit, and an
ordeal that reads its index from register 9. -/
theorem test_witness_DetectorReportsReadAfterWrite :
    ((prog 0x00400000).fetch = some 0x20090001 ∧
      decode progLaunch.catalogOrder 0x20090001 = .legal (.addi 9 0 1) ∧
      (Instr.addi 9 0 1).mnemonic ∉ [Mnemonic.ordeal, .meltdown]) ∧
    ((prog 0x00400004).fetch = some 0 ∧ decode progLaunch.catalogOrder 0 = .illegal 0) ∧
    hazardOf (after (.addi 9 0 5) (.add 10 9 9 0)) = some (true, true, true) ∧
    (Instr.meltdown 9 9 0).mnemonic = .meltdown ∧ (Instr.ordeal 9 9 0).mnemonic = .ordeal ∧
    defaultRoles.ordealIndex = .imm ∧
    hazardOf (after (.addi 9 0 5) (.meltdown 9 9 0)) = some (true, false, false) ∧
    (let p := { testLaunch with roles := { defaultRoles with ordealIndex := .reg .op1 } }
     let s := { withRegs p [] with detector := ⟨0x200, false, false, false⟩ }
     s.launch.roles.ordealIndex = .reg .op1 ∧
      hazardOf (step (s.withFetchWord 32 (encode (.ordeal 10 9 0)).toNat)) = some (true, true, false)) := by
  decide

theorem test_witness_RegistersOutsideTheWriteSetAreKept :
    (∃ t, exec (.meltdown 0 0 0) (st []) = .next t) ∧
    inSet 7 (writeSet (st []).launch.roles (.meltdown 0 0 0)) = false ∧
    inSet 16 (writeSet (st []).launch.roles (.meltdown 0 0 0)) = false :=
  ⟨exists_next (by decide), by decide, by decide⟩

/-- Two machines that differ in register 9 alone, and an instruction that does not read it. -/
theorem test_witness_InstructionsDependOnTheirReadSetOnly :
    sameButRegs (st [(9, 1), (10, 5)]) (st [(9, 2), (10, 5)]) ∧
    (∀ r : RegNum, inSet r (readSet (st [(9, 1), (10, 5)]).launch.roles (.add 9 10 10 0)) = true →
      (st [(9, 2), (10, 5)]).readReg r = (st [(9, 1), (10, 5)]).readReg r) :=
  ⟨⟨rfl, rfl, rfl, rfl, rfl, rfl⟩, by decide⟩

theorem test_witness_DetectorChangesNothingElse :
    sameButDetector (prog 0x00400000)
      { prog 0x00400000 with
        detector := { prevWs := 0x200, hazard := true, hazardRs := true, hazardRt := false } } := rfl

/-- The same word at one address in memories of the two byte orders. -/
theorem test_witness_ByteOrderIsUnobservable :
    (stMem [] 0x10010000 0xDEADBEEF).mem.wf = true ∧
    (Memory.writeWord .big [] 0x10010000 0xDEADBEEF).wf = true ∧
    sameWords (stMem [] 0x10010000 0xDEADBEEF)
      { stMem [] 0x10010000 0xDEADBEEF with
        mem := Memory.writeWord .big [] 0x10010000 0xDEADBEEF
        launch := { testLaunch with byteOrder := .big } } := by
  have hwf : Memory.wf [] = true := rfl
  refine ⟨wf_writeWord hwf .little (by decide) _, wf_writeWord hwf .big (by decide) _, rfl, rfl, rfl, rfl, rfl, rfl, ?_⟩
  intro a ha
  have h4 := (aligned_iff a).1 ha
  show (Memory.writeWord .big [] 0x10010000 0xDEADBEEF).readWord .big a.toNat =
    (Memory.writeWord .little [] 0x10010000 0xDEADBEEF).readWord .little a.toNat
  by_cases h : a.toNat = 0x10010000
  · rw [h, readWord_writeWord_same hwf .big (by decide), readWord_writeWord_same hwf .little (by decide)]
  · rw [readWord_writeWord_apart hwf .big (by decide) (by omega),
      readWord_writeWord_apart hwf .little (by decide) (by omega)]
    rfl

theorem test_witness_StepKeepsTheInvariant :
    Invariant (prog 0x00400000) ∧ ∃ t, step (prog 0x00400000) = .next t :=
  ⟨⟨by decide, by decide, by decide, by decide⟩, exists_next (by decide)⟩

theorem test_witness_ResetMeetsTheInvariant :
    testLaunch.resetPc.toNat % 4 = 0 ∧ (Memory.writeWord .little [] 0x10010004 9).wf = true := by decide

theorem test_witness_ResetPutsTheLaunchValues :
    progLaunch.wellFormed = true ∧ (31 : RegNum) ≠ 0 ∧ (1 : RegNum) ≠ 0 := by decide

theorem test_witness_LaunchParametersNeverChange : ∃ t, Reaches (prog 0x00400000) 1 t := by
  obtain ⟨t, h⟩ := exists_next (o := step (prog 0x00400000)) (by decide)
  exact ⟨t, .there h (.here t)⟩

/-- A word that is not valid for stores, and a program that is protected. -/
theorem test_witness_InvalidWordsAreNeverWritten :
    (prog 0x00400000).mem.wf = true ∧ (∃ t, Reaches (prog 0x00400000) 1 t) ∧
    (0x1000FFFC : Word).toNat % 4 = 0 ∧ (prog 0x00400000).launch.addrOk 0x1000FFFC .store = false ∧
    programProtected (prog 0x00400000).launch ∧ ((0x00400000 : Word).toNat, 0x20090001) ∈ progLaunch.imem := by
  refine ⟨by decide, test_witness_LaunchParametersNeverChange, by decide, by decide, ?_, by decide⟩
  intro a w kind h
  have h' : a.toNat = 0x00400000 ∨ a.toNat = 0x00400004 := by
    have : (a.toNat, w) ∈ [((0x00400000 : Nat), (0x20090001 : Word)), (0x00400004, 0x00000000)] := h
    simp only [List.mem_cons, Prod.mk.injEq, List.not_mem_nil, or_false] at this
    rcases this with ⟨e, _⟩ | ⟨e, _⟩
    · exact .inl e
    · exact .inr e
  have e : a = 0x00400000 ∨ a = 0x00400004 := h'.imp BitVec.eq_of_toNat_eq BitVec.eq_of_toNat_eq
  rcases e with rfl | rfl <;> cases kind <;> decide

end Sys2Proof.Tests
end

section
/-! PROOFS of the statements about the state: what an instruction may do to it, said once (`Updates`), the invariant of
the state, and register 0. -/

namespace Sys2Proof.Machine

/-! ## What an instruction may do to the state -/

/-- `t` is made from `s` by register writes, new pcs, draws, lines of text and stores of words. A new pc is a multiple
of 4 if the old one is (R27); a store is at an address that is aligned and valid for stores (R43, R44). -/
inductive Updates (s : State) : State → Prop where
  | refl : Updates s s
  | writeReg {t : State} (h : Updates s t) (r : RegNum) (v : Word) : Updates s (t.writeReg r v)
  | setPc {t : State} (h : Updates s t) {pc : Word} (hpc : t.pc.toNat % 4 = 0 → pc.toNat % 4 = 0) :
      Updates s (t.setPc pc)
  | afterDraw {t : State} (h : Updates s t) : Updates s t.afterDraw
  | emit {t : State} (h : Updates s t) (e : EmitEvent) : Updates s (t.emit e)
  | store {t : State} (h : Updates s t) {a : Word} (ha : t.accessible a .store = true) (v : Word) :
      Updates s { t with mem := t.mem.writeWord t.launch.byteOrder a.toNat v }

/-- A sum of multiples of 4 is one, also across the wrap at 2^32 (R28). -/
theorem add_aligned {a b : Word} (ha : a.toNat % 4 = 0) (hb : b.toNat % 4 = 0) : (a + b).toNat % 4 = 0 := by
  rw [BitVec.toNat_add]
  omega

/-- The instruction after an aligned one is aligned (R27, R121). -/
theorem next_aligned {pc : Word} (h : pc.toNat % 4 = 0) : (pc + 4).toNat % 4 = 0 := add_aligned h rfl

/-- A word shifted left by 2 is a multiple of 4 (R68). -/
theorem shiftLeft_two_aligned (v : Word) : (v <<< 2).toNat % 4 = 0 := by
  rw [BitVec.toNat_shiftLeft, Nat.shiftLeft_eq]
  omega

/-- A jump target is a multiple of 4, whatever the pc (R122). -/
theorem jumpTarget_aligned (pc : Word) (target26 : BitVec 26) : (jumpTarget pc target26).toNat % 4 = 0 := by
  have hregion : ((pc + 4) &&& 0xF0000000 : Word).toNat % 2 ^ 2 = 0 := by
    rw [BitVec.toNat_and, Nat.and_mod_two_pow]; simp
  have hoffset := shiftLeft_two_aligned (target26.zeroExtend 32)
  rw [jumpTarget, BitVec.toNat_or, show 4 = 2 ^ 2 from rfl, Nat.or_mod_two_pow, hregion, hoffset]
  rfl

/-- Both next pcs of a branch keep the alignment of the pc (R124 to R126). -/
theorem branchPc_aligned (taken : Bool) {pc : Word} (imm16 : BitVec 16) (h : pc.toNat % 4 = 0) :
    (branchPc taken pc imm16).toNat % 4 = 0 := by
  cases taken with
  | false => exact next_aligned h
  | true => exact add_aligned (next_aligned h) (shiftLeft_two_aligned (sext32 imm16))

section
variable {s t : State} (h : Updates s t)
include h

theorem Updates.advance : Updates s t.advance := h.setPc next_aligned

theorem Updates.emitIf (writes : Bool) (m : Mnemonic) (args : List Word) : Updates s (t.emitIf writes m args) := by
  cases writes with
  | false => exact h
  | true => exact h.emit _

/-- Step (a) of meltdown writes registers only (R164). -/
theorem Updates.penaliseBand : Updates s (penaliseBand t) :=
  List.foldlRecOn (motive := Updates s) bandRegs _ h fun _ hu r _ => hu.writeReg r _

/-- Step (b) of meltdown stores a word or does nothing (R164, R191). -/
theorem Updates.bumpCounter : Updates s (bumpCounter t) := by
  rcases bumpCounter_cases t with ⟨-, e⟩ | ⟨hacc, e⟩
  · rw [e]; exact h
  · rw [e]; exact h.store (Bool.and_eq_true_iff.1 hacc).2 _

end

/-- The execution unit, where it completes, writes one register and advances (R100). -/
theorem updates_of_aluInto {op : AluOp} {rd : RegNum} {a b : Word} {s t : State}
    (h : aluInto op rd a b s = .next t) : Updates s t := by
  rcases aluInto_cases op rd a b s with ⟨-, e⟩ | ⟨-, e⟩
  · rw [e] at h; cases h
  · rw [e] at h; cases h
    exact (Updates.refl.writeReg _ _).advance

section
variable {s : State} {rs : RegNum} {imm16 : BitVec 16}

/-- lw of an accessible address loads the word there (R141). -/
theorem execLw_of_accessible (h : s.accessible (effectiveAddress (s.readReg rs) imm16) .load = true) (rt : RegNum) :
    execLw rt rs imm16 s = .next
      (s.writeReg rt (s.mem.readWord s.launch.byteOrder (effectiveAddress (s.readReg rs) imm16).toNat)).advance := by
  simp only [execLw, memRead, h, if_true]

/-- lw of any other address fails, whatever the destination (R141, R182). -/
theorem execLw_of_not_accessible (h : s.accessible (effectiveAddress (s.readReg rs) imm16) .load = false)
    (rt : RegNum) :
    execLw rt rs imm16 s = .fault (.addressError { pc := s.pc, word := s.fetch, detector := s.detector }
      (effectiveAddress (s.readReg rs) imm16) .load) := by
  simp only [execLw, memRead, h, Bool.false_eq_true, if_false, raiseAddress, raise, State.site]

/-- sw to an accessible address stores the word (R142). -/
theorem execSw_of_accessible (h : s.accessible (effectiveAddress (s.readReg rs) imm16) .store = true) (rt : RegNum) :
    execSw rt rs imm16 s = .next (State.advance { s with
      mem := s.mem.writeWord s.launch.byteOrder (effectiveAddress (s.readReg rs) imm16).toNat (s.readReg rt) }) := by
  simp only [execSw, memWrite, h, if_true]

/-- sw to any other address fails (R142, R182). -/
theorem execSw_of_not_accessible (h : s.accessible (effectiveAddress (s.readReg rs) imm16) .store = false)
    (rt : RegNum) :
    execSw rt rs imm16 s = .fault (.addressError { pc := s.pc, word := s.fetch, detector := s.detector }
      (effectiveAddress (s.readReg rs) imm16) .store) := by
  simp only [execSw, memWrite, h, Bool.false_eq_true, if_false, raiseAddress, raise, State.site]

end

theorem updates_of_execLw {rt rs : RegNum} {imm16 : BitVec 16} {s t : State}
    (h : execLw rt rs imm16 s = .next t) : Updates s t := by
  cases hacc : s.accessible (effectiveAddress (s.readReg rs) imm16) .load with
  | true =>
    rw [execLw_of_accessible hacc] at h; cases h
    exact (Updates.refl.writeReg _ _).advance
  | false => rw [execLw_of_not_accessible hacc] at h; cases h

theorem updates_of_execSw {rt rs : RegNum} {imm16 : BitVec 16} {s t : State}
    (h : execSw rt rs imm16 s = .next t) : Updates s t := by
  cases hacc : s.accessible (effectiveAddress (s.readReg rs) imm16) .store with
  | true =>
    rw [execSw_of_accessible hacc] at h; cases h
    exact (Updates.refl.store hacc _).advance
  | false => rw [execSw_of_not_accessible hacc] at h; cases h

/-- Everything an instruction that completes may do to the state. -/
theorem updates_of_exec {i : Instr} {s t : State} (h : exec i s = .next t) : Updates s t := by
  have start : Updates s s := .refl
  cases i with
  | add | sub | mul | and | or | slt | addi =>
    simp only [exec, execAdd, execSub, execMul, execAnd, execOr, execSlt, execAddi] at h
    exact updates_of_aluInto h
  | lw => exact updates_of_execLw h
  | sw => exact updates_of_execSw h
  | j target26 => cases h; exact start.setPc fun _ => jumpTarget_aligned s.pc target26
  | jal target26 => cases h; exact (start.writeReg _ _).setPc fun _ => jumpTarget_aligned s.pc target26
  | beq _ _ imm16 | bne _ _ imm16 => cases h; exact start.setPc (branchPc_aligned _ imm16)
  | extract | ordeal => cases h; exact ((start.afterDraw.writeReg _ _).emitIf _ _ _).advance
  | suppress | ego => cases h; exact ((start.writeReg _ _).emitIf _ _ _).advance
  | winst | winsight | wattach | wrepress | panic => cases h; exact ((start.writeReg _ _).emit _).advance
  | meltdown => cases h; exact (start.penaliseBand.bumpCounter.emitIf _ _ _).advance

/-- Everything a step that completes does (R120, R209): it runs the decoded instruction and drives the detector. -/
theorem step_next_cases {s t : State} (h : step s = .next t) :
    ∃ w i u, s.fetch = some w ∧ decode s.launch.catalogOrder w = .legal i ∧ exec i s = .next u ∧
      t = { u with detector := s.detector.observe s.launch.roles (fieldsOf w) (.legal i) } := by
  unfold step at h
  split at h
  case h_1 => unfold noStep at h; split at h <;> cases h
  case h_2 w hfetch =>
    split at h
    case h_1 => cases h
    case h_2 i hdecode =>
      cases hexec : exec i s with
      | next u => rw [hexec] at h; cases h; exact ⟨w, i, u, hfetch, hdecode, hexec, rfl⟩
      | fault f => rw [hexec] at h; cases h
      | refused r => rw [hexec] at h; cases h

/-! ## The invariant of the state -/

/-- Register 0 is in no set of registers (R207, R208). -/
theorem regSet_getLsbD_zero (l : List RegNum) : (regSet l).getLsbD 0 = false := by
  induction l with
  | nil => rfl
  | cons r rest ih =>
    unfold regSet
    split
    · exact ih
    · next hr =>
      have hr' : 0 < r.val := Nat.pos_of_ne_zero fun e => hr (Fin.ext e)
      rw [BitVec.getLsbD_or, ih, BitVec.getLsbD_shiftLeft]
      simp [hr']

/-- Whatever word the detector observes, register 0 is not in its latch afterwards (R208). -/
theorem observe_prevWs_getLsbD_zero (roles : Roles) (d : Fields) (v : Verdict) (prev : Detector) :
    (prev.observe roles d v).prevWs.getLsbD 0 = false := by
  cases v with
  | illegal w => exact regSet_getLsbD_zero []
  | legal i => exact regSet_getLsbD_zero _

theorem Updates.invariant {s t : State} (h : Updates s t) (hs : Invariant s) : Invariant t := by
  induction h with
  | refl => exact hs
  | writeReg _ r v ih =>
    obtain ⟨hpc, hmem, hzero, hlatch⟩ := ih
    exact ⟨by simpa using hpc, by simpa using hmem, by rw [writeReg_slot_zero, hzero], by simpa using hlatch⟩
  | setPc _ hpc ih => exact ⟨hpc ih.pcAligned, ih.memCanonical, ih.zeroSlot, ih.latchZeroClear⟩
  | afterDraw _ ih => exact ⟨ih.pcAligned, ih.memCanonical, ih.zeroSlot, ih.latchZeroClear⟩
  | emit _ e ih => exact ⟨ih.pcAligned, ih.memCanonical, ih.zeroSlot, ih.latchZeroClear⟩
  | store _ ha v ih =>
    have htop := aligned_top (aligned_of_accessible ha)
    exact ⟨ih.pcAligned, wf_writeWord ih.memCanonical _ htop v, ih.zeroSlot, ih.latchZeroClear⟩

/-- Settles O44: the instruction makes updates only, each of which keeps the invariant, and the detector then latches a
set without register 0. -/
theorem stepKeepsTheInvariant : Obligations.StepKeepsTheInvariant := by
  intro s t hs h
  obtain ⟨w, i, u, -, -, hexec, rfl⟩ := step_next_cases h
  have hu : Invariant u := (updates_of_exec hexec).invariant hs
  exact ⟨hu.pcAligned, hu.memCanonical, hu.zeroSlot, observe_prevWs_getLsbD_zero ..⟩

theorem invariant_boot (p : Launch) {mem : Memory} (hpc : p.resetPc.toNat % 4 = 0) (hmem : mem.wf = true) :
    Invariant (State.boot p mem) where
  pcAligned := hpc
  memCanonical := hmem
  zeroSlot := by simp [State.boot]
  latchZeroClear := regSet_getLsbD_zero []

/-- Settles O45: reset is the boot from the default launch, whose `RESET_PC` is aligned, with an empty memory. -/
theorem resetMeetsTheInvariant : Obligations.ResetMeetsTheInvariant :=
  ⟨invariant_boot defaultLaunch (by decide) rfl, fun p _ => invariant_boot p⟩

/-! ## Register 0 -/

/-- The sign test of R101 is the library's signed overflow of an addition. -/
theorem addOvf_eq_saddOverflow (a b : Word) : addOvf a b = a.saddOverflow b := by
  rw [BitVec.saddOverflow_eq]; rfl

/-- `AddOvf` holds exactly where the exact sum is not a signed 32-bit number (R101). -/
theorem addOvf_iff (a b : Word) : addOvf a b = true ↔ ¬ fits32 (a.toInt + b.toInt) := by
  rw [addOvf_eq_saddOverflow, BitVec.saddOverflow, fits32]
  simp only [Bool.or_eq_true, decide_eq_true_eq]
  omega

/-- The exact outcome of the execution unit where its overflow output is set (R100, R186). -/
theorem aluInto_of_ovf {op : AluOp} {a b : Word} (h : aluOvf op a b = true) (rd : RegNum) (s : State) :
    aluInto op rd a b s =
      .fault (.arithmeticOverflow { pc := s.pc, word := s.fetch, detector := s.detector }) := by
  rcases aluInto_cases op rd a b s with ⟨-, e⟩ | ⟨h', -⟩
  · exact e
  · rw [h] at h'; cases h'

/-- Settles O20: register 0 is special in `readReg` and `writeReg` alone; the checks of add and lw do not look at the
destination. -/
theorem registerZeroReadsZeroAndDiscardsWrites : Obligations.RegisterZeroReadsZeroAndDiscardsWrites := by
  refine ⟨readReg_zero, writeReg_zero, ?_, ?_⟩
  · intro s rs rt shamt hsum
    exact aluInto_of_ovf (op := .add) ((addOvf_iff _ _).2 hsum) 0 s
  · intro s rs imm16
    exact ⟨fun h => execLw_of_accessible h 0, fun h => execLw_of_not_accessible h 0⟩

end Sys2Proof.Machine
end

section
/-! PROOFS of the statements about data memory: the word read after a word is written, which bytes an instruction and a
run may change, and two machines that hold the same words in different byte orders. -/

namespace Sys2Proof.Machine

/-! ## Words and their bytes -/

/-- A transfer fails where the address is misaligned or not valid for the kind (R43, R44). -/
theorem accessible_eq_false_iff (s : State) (a : Word) (kind : AccessKind) :
    s.accessible a kind = false ↔ a.toNat % 4 ≠ 0 ∨ s.launch.addrOk a kind = false := by
  rw [State.accessible, Bool.and_eq_false_iff, ← Bool.not_eq_true (aligned a), aligned_iff]

/-- Two aligned words are the same word or have no byte in common (R40, R43). -/
theorem aligned_words_apart {a b : Word} (ha : aligned a = true) (hb : aligned b = true) (hne : b ≠ a) :
    b.toNat + 3 < a.toNat ∨ a.toNat + 3 < b.toNat := by
  have ha4 := (aligned_iff a).1 ha
  have hb4 := (aligned_iff b).1 hb
  have hnat : b.toNat ≠ a.toNat := fun e => hne (BitVec.eq_of_toNat_eq e)
  omega

/-- The aligned word read after an aligned word was written, in canonical memory (R42, R47, R48). -/
theorem readWord_writeWord {m : Memory} (hm : m.wf = true) (order : ByteOrder) {a b : Word}
    (ha : aligned a = true) (hb : aligned b = true) (v : Word) :
    (m.writeWord order a.toNat v).readWord order b.toNat = if b = a then v else m.readWord order b.toNat := by
  split
  · next heq => rw [heq, readWord_writeWord_same hm order (aligned_top ha)]
  · next hne => exact readWord_writeWord_apart hm order (aligned_top ha) (aligned_words_apart ha hb hne) v

/-- A byte outside the aligned word that is written reads as before (R48). -/
theorem readByte_writeWord_outside {m : Memory} (hm : m.wf = true) (order : ByteOrder) {a : Word}
    (ha : aligned a = true) (v : Word) {b : Nat} (hb : b < a.toNat ∨ a.toNat + 4 ≤ b) :
    (m.writeWord order a.toNat v).readByte b = m.readByte b := by
  rw [readByte_writeWord hm order (aligned_top ha)]
  have hne : b ≠ a.toNat + 3 ∧ b ≠ a.toNat + 2 ∧ b ≠ a.toNat + 1 ∧ b ≠ a.toNat := by omega
  simp [hne]

/-- Memories with the same four bytes at an address hold the same word there (R42). -/
theorem readWord_congr {m m' : Memory} {a : Nat} (h : ∀ k, k < 4 → m'.readByte (a + k) = m.readByte (a + k))
    (order : ByteOrder) : m'.readWord order a = m.readWord order a := by
  have h0 : m'.readByte a = m.readByte a := h 0 (by decide)
  have h1 := h 1 (by decide)
  have h2 := h 2 (by decide)
  have h3 := h 3 (by decide)
  cases order <;> simp only [Memory.readWord, h0, h1, h2, h3]

/-! ## The two memory primitives -/

/-- `MemRead` fails exactly at a misaligned or invalid address (R47). -/
theorem memRead_eq_error_iff (s : State) (a : Word) :
    memRead s a = .error { a := a, kind := .load } ↔ a.toNat % 4 ≠ 0 ∨ s.launch.addrOk a .load = false := by
  rw [← accessible_eq_false_iff]
  rcases memRead_cases s a with ⟨hacc, e⟩ | ⟨hacc, e⟩ <;> simp [hacc, e]

/-- `MemWrite` fails exactly at a misaligned or invalid address (R48). -/
theorem memWrite_eq_error_iff (s : State) (a v : Word) :
    memWrite s a v = .error { a := a, kind := .store } ↔ a.toNat % 4 ≠ 0 ∨ s.launch.addrOk a .store = false := by
  rw [← accessible_eq_false_iff]
  rcases memWrite_cases s a v with ⟨hacc, e⟩ | ⟨hacc, e⟩ <;> simp [hacc, e]

/-- The only error of `MemWrite` names its own address and the kind store (R48, R182). -/
theorem eq_of_memWrite_eq_error {s : State} {a v : Word} {e : AddressError} (h : memWrite s a v = .error e) :
    e = { a := a, kind := .store } := by
  rcases memWrite_cases s a v with ⟨-, e'⟩ | ⟨-, e'⟩
  · rw [e'] at h; cases h
  · rw [e'] at h; cases h; rfl

/-- A `MemWrite` that completes had an accessible address and changed nothing but the word there (R48). -/
theorem of_memWrite_eq_ok {s t : State} {a v : Word} (h : memWrite s a v = .ok t) :
    s.accessible a .store = true ∧ t = { s with mem := s.mem.writeWord s.launch.byteOrder a.toNat v } := by
  rcases memWrite_cases s a v with ⟨hacc, e⟩ | ⟨-, e⟩
  · rw [e] at h; cases h; exact ⟨hacc, rfl⟩
  · rw [e] at h; cases h

/-- `MemRead` after a `MemWrite` that completed, at the address written (R47). -/
theorem memRead_memWrite_same {s t : State} {a v : Word} (hm : s.mem.wf = true) (h : memWrite s a v = .ok t) :
    memRead t a = if s.launch.addrOk a .load = true then .ok v else .error { a := a, kind := .load } := by
  obtain ⟨hacc, rfl⟩ := of_memWrite_eq_ok h
  have ha := aligned_of_accessible hacc
  simp only [memRead, State.accessible, ha, Bool.true_and, readWord_writeWord hm _ ha ha, if_true]

/-- `MemRead` after a `MemWrite` that completed, at any other address (R47). -/
theorem memRead_memWrite_ne {s t : State} {a b v : Word} (hm : s.mem.wf = true) (h : memWrite s a v = .ok t)
    (hne : b ≠ a) : memRead t b = memRead s b := by
  obtain ⟨hacc, rfl⟩ := of_memWrite_eq_ok h
  have ha := aligned_of_accessible hacc
  cases hb : aligned b with
  | true => simp [memRead, State.accessible, readWord_writeWord hm _ ha hb, hne]
  | false => simp [memRead, State.accessible, hb]

/-- Settles O26: an aligned word is the one written or has no byte in common with it. -/
theorem memReadReturnsTheWordLastWritten : Obligations.MemReadReturnsTheWordLastWritten := by
  refine ⟨?_, memRead_eq_error_iff, fun s a v =>
    ⟨memWrite_eq_error_iff s a v, fun _ => eq_of_memWrite_eq_error⟩⟩
  intro s t a v hm h b
  split
  · next heq => rw [heq]; exact memRead_memWrite_same hm h
  · next hne => exact memRead_memWrite_ne hm h hne

/-! ## The bytes an instruction may change -/

/-- The execution unit, where it completes, leaves memory alone (R100). -/
theorem mem_of_aluInto {op : AluOp} {rd : RegNum} {a b : Word} {s t : State}
    (h : aluInto op rd a b s = .next t) : t.mem = s.mem := by
  rcases aluInto_cases op rd a b s with ⟨-, e⟩ | ⟨-, e⟩
  · rw [e] at h; cases h
  · rw [e] at h; cases h; simp

theorem mem_of_execLw {rt rs : RegNum} {imm16 : BitVec 16} {s t : State}
    (h : execLw rt rs imm16 s = .next t) : t.mem = s.mem := by
  cases hacc : s.accessible (effectiveAddress (s.readReg rs) imm16) .load with
  | true => rw [execLw_of_accessible hacc] at h; cases h; simp
  | false => rw [execLw_of_not_accessible hacc] at h; cases h

/-- Every instruction but sw and meltdown leaves data memory as it is (R41). -/
theorem mem_of_exec {i : Instr} {s t : State} (hsw : i.mnemonic ≠ .sw) (hmelt : i.mnemonic ≠ .meltdown)
    (h : exec i s = .next t) : t.mem = s.mem := by
  cases i with
  | sw => exact absurd rfl hsw
  | meltdown => exact absurd rfl hmelt
  | add | sub | mul | and | or | slt | addi =>
    simp only [exec, execAdd, execSub, execMul, execAnd, execOr, execSlt, execAddi] at h
    exact mem_of_aluInto h
  | lw => exact mem_of_execLw h
  | j | jal | beq | bne | suppress | ego | winst | winsight | wattach | wrepress | panic => cases h; simp [work]
  | extract | ordeal => cases h; simp [extractWith, ordealWith]

/-- sw, where it completes, changes the word at its effective address only (R142). -/
theorem memKeptOutside_of_execSw {rt rs : RegNum} {imm16 : BitVec 16} {s t : State} (hm : s.mem.wf = true)
    (h : execSw rt rs imm16 s = .next t) : memKeptOutside (effectiveAddress (s.readReg rs) imm16) s t := by
  cases hacc : s.accessible (effectiveAddress (s.readReg rs) imm16) .store with
  | true =>
    rw [execSw_of_accessible hacc] at h; cases h
    exact fun b => readByte_writeWord_outside hm _ (aligned_of_accessible hacc) _
  | false => rw [execSw_of_not_accessible hacc] at h; cases h

/-- Step (a) of meltdown leaves memory alone (R164). -/
@[simp] theorem penaliseBand_mem (s : State) : (penaliseBand s).mem = s.mem := by
  simp [penaliseBand, bandRegs]

/-- Step (a) of meltdown leaves every register outside the band alone (R164). -/
theorem readReg_penaliseBand_of_notMem (s : State) {r : RegNum} (hr : r ∉ bandRegs) :
    (penaliseBand s).readReg r = s.readReg r :=
  List.foldlRecOn (motive := fun t : State => t.readReg r = s.readReg r) bandRegs _ rfl fun t ht q hq => by
    rw [readReg_writeReg_ne t _ (ne_of_mem_of_not_mem hq hr).symm, ht]

/-- The base of the counter is not in the band, so step (a) of meltdown does not move the counter (R164). -/
@[simp] theorem counterAddress_penaliseBand (s : State) : counterAddress (penaliseBand s) = counterAddress s := by
  rw [counterAddress, counterAddress, readReg_penaliseBand_of_notMem s (by decide)]

/-- Step (b) of meltdown changes the word of the counter only (R164). -/
theorem memKeptOutside_bumpCounter {s : State} (hm : s.mem.wf = true) :
    memKeptOutside (counterAddress s) s (bumpCounter s) := by
  intro b hb
  rcases bumpCounter_cases s with ⟨-, e⟩ | ⟨hacc, e⟩
  · rw [e]
  · rw [e]
    exact readByte_writeWord_outside hm _ (aligned_of_accessible (Bool.and_eq_true_iff.1 hacc).2) _ hb

/-- meltdown changes the word of the counter only (R164). -/
theorem memKeptOutside_of_execMeltdown {s t : State} (hm : s.mem.wf = true) (h : execMeltdown s = .next t) :
    memKeptOutside (counterAddress s) s t := by
  cases h
  have hbump := memKeptOutside_bumpCounter (s := penaliseBand s) (by simpa using hm)
  simpa [memKeptOutside] using hbump

/-- Settles O27: sw and meltdown keep every byte outside the word they store to, and every other instruction keeps
memory. -/
theorem onlySwAndMeltdownChangeMemory : Obligations.OnlySwAndMeltdownChangeMemory := by
  intro i s t hm h b
  cases i with
  | sw rt rs imm16 =>
    have hout := memKeptOutside_of_execSw hm h b
    by_cases hb : (effectiveAddress (s.readReg rs) imm16).toNat ≤ b ∧
        b < (effectiveAddress (s.readReg rs) imm16).toNat + 4
    · exact .inr (.inl ⟨rt, rs, imm16, rfl, hb⟩)
    · exact .inl (hout (by omega))
  | meltdown op0 op1 imm16 =>
    have hout := memKeptOutside_of_execMeltdown hm h b
    by_cases hb : (counterAddress s).toNat ≤ b ∧ b < (counterAddress s).toNat + 4
    · exact .inr (.inr ⟨op0, op1, imm16, rfl, hb⟩)
    · exact .inl (hout (by omega))
  | _ => exact .inl (by rw [mem_of_exec (by simp [Instr.mnemonic]) (by simp [Instr.mnemonic]) h])

/-! ## The launch parameters -/

theorem Updates.launch {s t : State} (h : Updates s t) : t.launch = s.launch := by
  induction h with
  | refl => rfl
  | writeReg _ r v ih => simpa using ih
  | setPc _ _ ih | afterDraw _ ih | emit _ _ ih | store _ _ _ ih => exact ih

theorem step_launch {s t : State} (h : step s = .next t) : t.launch = s.launch := by
  obtain ⟨w, i, u, -, -, hexec, rfl⟩ := step_next_cases h
  exact (updates_of_exec hexec).launch

/-- Settles O47, by induction on the run. -/
theorem launchParametersNeverChange : Obligations.LaunchParametersNeverChange := by
  intro s t n h
  induction h with
  | here s => rfl
  | there hstep _ ih => rw [ih, step_launch hstep]

/-! ## The bytes a run may change -/

/-- `t` has the launch parameters of `s` and a canonical memory in which no byte of a word that is not valid for stores
has changed since `s` (R44, R48). -/
structure InvalidWordsKept (s t : State) : Prop where
  launch : t.launch = s.launch
  memCanonical : t.mem.wf = true
  bytes : ∀ a : Word, a.toNat % 4 = 0 → s.launch.addrOk a .store = false →
    ∀ k, k < 4 → t.mem.readByte (a.toNat + k) = s.mem.readByte (a.toNat + k)

theorem InvalidWordsKept.refl {s : State} (hm : s.mem.wf = true) : InvalidWordsKept s s :=
  ⟨rfl, hm, fun _ _ _ _ _ => rfl⟩

/-- A store to an accessible word touches no word that is not valid for stores (R43, R44, R48). -/
theorem InvalidWordsKept.store {s t : State} (h : InvalidWordsKept s t) {a : Word}
    (ha : t.accessible a .store = true) (v : Word) :
    InvalidWordsKept s { t with mem := t.mem.writeWord t.launch.byteOrder a.toNat v } := by
  obtain ⟨hl, hm, hbytes⟩ := h
  have hal := aligned_of_accessible ha
  refine ⟨hl, wf_writeWord hm _ (aligned_top hal) v, fun b hb hinvalid k hk => ?_⟩
  have hne : b ≠ a := by
    rintro rfl
    rw [(accessible_eq_false_iff t b .store).2 (.inr (hl ▸ hinvalid))] at ha
    cases ha
  have hapart := aligned_words_apart hal ((aligned_iff b).2 hb) hne
  rw [readByte_writeWord_outside hm _ hal v (by omega), hbytes b hb hinvalid k hk]

theorem InvalidWordsKept.updates {s t u : State} (h : InvalidWordsKept s t) (hu : Updates t u) :
    InvalidWordsKept s u := by
  induction hu with
  | refl => exact h
  | writeReg _ r v ih =>
    obtain ⟨hl, hm, hbytes⟩ := ih
    exact ⟨by simpa using hl, by simpa using hm, by simpa using hbytes⟩
  | setPc _ _ ih | afterDraw _ ih | emit _ _ ih => exact ⟨ih.launch, ih.memCanonical, ih.bytes⟩
  | store _ ha v ih => exact ih.store ha v

theorem InvalidWordsKept.step {s t u : State} (h : InvalidWordsKept s t) (hstep : step t = .next u) :
    InvalidWordsKept s u := by
  obtain ⟨w, i, v, -, -, hexec, rfl⟩ := step_next_cases hstep
  have hv := h.updates (updates_of_exec hexec)
  exact ⟨hv.launch, hv.memCanonical, hv.bytes⟩

theorem InvalidWordsKept.reaches {s t u : State} {n : Nat} (h : InvalidWordsKept s t) (hrun : Reaches t n u) :
    InvalidWordsKept s u := by
  induction hrun with
  | here => exact h
  | there hstep _ ih => exact ih (h.step hstep)

/-- Settles O48: every store of a run is to an accessible word; a protected program's words are not valid for stores. -/
theorem invalidWordsAreNeverWritten : Obligations.InvalidWordsAreNeverWritten := by
  intro s t n hm hrun
  have hkept := (InvalidWordsKept.refl hm).reaches hrun
  refine ⟨hkept.bytes, fun hprot a w ha hw => ?_⟩
  rw [hkept.launch]
  exact readWord_congr (hkept.bytes a ha (hprot a w .store hw)) _

end Sys2Proof.Machine
end

section
/-! PROOFS that no run can observe the byte order: two runs side by side, the relation of two machines that hold the
same words, and what keeps it. -/

namespace Sys2Proof.Machine

/-! ## Two runs side by side -/

section
variable {rel : State → State → Prop} {frel : Fault → Fault → Prop}

/-- Related outcomes are of one kind. -/
theorem outcomesRelated_cases {o o' : Host.Outcome State Fault Refusal} (h : outcomesRelated rel frel o o') :
    (∃ t t', o = .next t ∧ o' = .next t' ∧ rel t t') ∨
      (∃ f f', o = .fault f ∧ o' = .fault f' ∧ frel f f') ∨ (∃ r, o = .refused r ∧ o' = .refused r) := by
  cases o with
  | next t =>
    cases o' with
    | next t' => exact .inl ⟨t, t', rfl, rfl, h⟩
    | fault | refused => cases h
  | fault f =>
    cases o' with
    | fault f' => exact .inr (.inl ⟨f, f', rfl, rfl, h⟩)
    | next | refused => cases h
  | refused r =>
    cases o' with
    | refused r' => cases h; exact .inr (.inr ⟨r, rfl, rfl⟩)
    | next | fault => cases h

theorem outcomesRelated_mono {rel' : State → State → Prop} (hrel : ∀ t t', rel t t' → rel' t t')
    {o o' : Host.Outcome State Fault Refusal} (h : outcomesRelated rel frel o o') : outcomesRelated rel' frel o o' := by
  rcases outcomesRelated_cases h with ⟨t, t', rfl, rfl, ht⟩ | ⟨f, f', rfl, rfl, hf⟩ | ⟨r, rfl, rfl⟩
  · exact hrel t t' ht
  · exact hf
  · rfl

/-- A run goes on from the next state of its first step. -/
theorem run_succ_of_next {s t : State} (e : step s = .next t) (n : Nat) :
    Host.Core.run Sys2Proof.core (n + 1) s = Host.Core.run Sys2Proof.core n t := by
  simp only [Host.Core.run, show Sys2Proof.core.step s = .next t from e]

/-- A run ends where its first step faults. -/
theorem run_succ_of_fault {s : State} {f : Fault} (e : step s = .fault f) (n : Nat) :
    Host.Core.run Sys2Proof.core (n + 1) s = .fault f := by
  simp only [Host.Core.run, show Sys2Proof.core.step s = .fault f from e]

/-- A run ends where its first step is refused. -/
theorem run_succ_of_refused {s : State} {r : Refusal} (e : step s = .refused r) (n : Nat) :
    Host.Core.run Sys2Proof.core (n + 1) s = .refused r := by
  simp only [Host.Core.run, show Sys2Proof.core.step s = .refused r from e]

/-- A relation that every pair of steps keeps is kept by runs of any length. -/
theorem outcomesRelated_run (hstep : ∀ s s', rel s s' → outcomesRelated rel frel (step s) (step s')) (n : Nat)
    {s s' : State} (h : rel s s') :
    outcomesRelated rel frel (Host.Core.run Sys2Proof.core n s) (Host.Core.run Sys2Proof.core n s') := by
  induction n generalizing s s' with
  | zero => exact h
  | succ n ih =>
    rcases outcomesRelated_cases (hstep s s' h) with ⟨t, t', e, e', ht⟩ | ⟨f, f', e, e', hf⟩ | ⟨r, e, e'⟩
    · rw [run_succ_of_next e, run_succ_of_next e']; exact ih ht
    · rw [run_succ_of_fault e, run_succ_of_fault e']; exact hf
    · rw [run_succ_of_refused e, run_succ_of_refused e']; rfl

end

/-! ## The same words in two byte orders -/

/-- The machine `s` with the data memory `mem`, held in the byte order `order`. -/
def State.withMemory (s : State) (order : ByteOrder) (mem : Memory) : State :=
  { s with mem := mem, launch := { s.launch with byteOrder := order } }

/-- Two machines that are the same but for the byte order in which their canonical memories hold the same words
(`byteOrderTwins_iff`). -/
inductive ByteOrderTwins : State → State → Prop where
  | intro {s : State} {order : ByteOrder} {mem : Memory} (hm : s.mem.wf = true) (hm' : mem.wf = true)
      (hwords : ∀ a : Word, aligned a = true →
        mem.readWord order a.toNat = s.mem.readWord s.launch.byteOrder a.toNat) :
      ByteOrderTwins s (s.withMemory order mem)

theorem byteOrderTwins_iff (s s' : State) :
    ByteOrderTwins s s' ↔ s.mem.wf = true ∧ s'.mem.wf = true ∧ sameWords s s' := by
  constructor
  · rintro ⟨hm, hm', hwords⟩
    exact ⟨hm, hm', rfl, rfl, rfl, rfl, rfl, rfl, hwords⟩
  · rintro ⟨hm, hm', hregs, hpc, hdet, hdraws, hlines, hlaunch, hwords⟩
    have heq : s' = s.withMemory s'.launch.byteOrder s'.mem := by
      obtain ⟨_, _, _, _, _, _, _⟩ := s'
      simp only at hregs hpc hdet hdraws hlines hlaunch
      subst hregs hpc hdet hdraws hlines
      rw [State.withMemory, ← hlaunch]
    rw [heq]
    exact .intro hm hm' hwords

namespace ByteOrderTwins
variable {s s' : State} (h : ByteOrderTwins s s')
include h

theorem launch_eq : s'.launch = { s.launch with byteOrder := s'.launch.byteOrder } := by cases h; rfl
theorem readReg_eq (r : RegNum) : s'.readReg r = s.readReg r := by cases h; rfl
theorem accessible_eq (a : Word) (kind : AccessKind) : s'.accessible a kind = s.accessible a kind := by
  cases h; rfl
theorem readWord_eq {a : Word} (ha : aligned a = true) :
    s'.mem.readWord s'.launch.byteOrder a.toNat = s.mem.readWord s.launch.byteOrder a.toNat := by
  obtain ⟨-, -, hwords⟩ := h
  exact hwords a ha
/-- Written as `withMemory`, everything `s'` reads but the words agrees with `s` by computation. -/
theorem eq_withMemory : ∃ order mem, s' = s.withMemory order mem := by cases h; exact ⟨_, _, rfl⟩

theorem writeReg (r : RegNum) (v : Word) : ByteOrderTwins (s.writeReg r v) (s'.writeReg r v) := by
  obtain ⟨hm, hm', hwords⟩ := h
  unfold State.writeReg
  split
  · exact .intro hm hm' hwords
  · exact .intro (s := { s with regs := s.regs.set r v }) hm hm' hwords

theorem setPc (pc : Word) : ByteOrderTwins (s.setPc pc) (s'.setPc pc) := by
  obtain ⟨hm, hm', hwords⟩ := h
  exact .intro (s := s.setPc pc) hm hm' hwords

theorem advance : ByteOrderTwins s.advance s'.advance := by
  obtain ⟨hm, hm', hwords⟩ := h
  exact .intro (s := s.advance) hm hm' hwords

theorem afterDraw : ByteOrderTwins s.afterDraw s'.afterDraw := by
  obtain ⟨hm, hm', hwords⟩ := h
  exact .intro (s := s.afterDraw) hm hm' hwords

theorem emit (e : EmitEvent) : ByteOrderTwins (s.emit e) (s'.emit e) := by
  obtain ⟨hm, hm', hwords⟩ := h
  exact .intro (s := s.emit e) hm hm' hwords

theorem emitIf (writes : Bool) (m : Mnemonic) (args : List Word) :
    ByteOrderTwins (s.emitIf writes m args) (s'.emitIf writes m args) := by
  cases writes with
  | false => exact h
  | true =>
    obtain ⟨hm, hm', hwords⟩ := h
    exact (ByteOrderTwins.intro hm hm' hwords).emit _

theorem setDetector (d : Detector) : ByteOrderTwins { s with detector := d } { s' with detector := d } := by
  obtain ⟨hm, hm', hwords⟩ := h
  exact .intro (s := { s with detector := d }) hm hm' hwords

/-- A word stored in both, each in its own order, is again the same word (R42, R48). -/
theorem store {a : Word} (ha : aligned a = true) (v : Word) :
    ByteOrderTwins { s with mem := s.mem.writeWord s.launch.byteOrder a.toNat v }
      { s' with mem := s'.mem.writeWord s'.launch.byteOrder a.toNat v } := by
  obtain ⟨hm, hm', hwords⟩ := h
  have htop := aligned_top ha
  refine .intro (s := { s with mem := s.mem.writeWord s.launch.byteOrder a.toNat v }) (wf_writeWord hm _ htop v)
    (wf_writeWord hm' _ htop v) fun b hb => ?_
  calc Memory.readWord _ _ b.toNat
      = if b = a then v else Memory.readWord _ _ b.toNat := readWord_writeWord hm' _ ha hb v
    _ = if b = a then v else s.mem.readWord s.launch.byteOrder b.toNat := by rw [hwords b hb]
    _ = _ := (readWord_writeWord hm _ ha hb v).symm

/-- `MemRead` gives the same word or the same error (R42, R47). -/
theorem memRead_eq (a : Word) : memRead s' a = memRead s a := by
  unfold memRead
  rw [h.accessible_eq]
  cases hacc : s.accessible a .load with
  | true => rw [h.readWord_eq (aligned_of_accessible hacc)]
  | false => rfl

/-- `MemWrite` fails in both alike, or stores the same word in both (R42, R48). -/
theorem memWrite_cases (a v : Word) :
    (∃ e, memWrite s a v = .error e ∧ memWrite s' a v = .error e) ∨
      ∃ t t', memWrite s a v = .ok t ∧ memWrite s' a v = .ok t' ∧ ByteOrderTwins t t' := by
  unfold memWrite
  rw [h.accessible_eq]
  cases hacc : s.accessible a .store with
  | true => exact .inr ⟨_, _, rfl, rfl, h.store (aligned_of_accessible hacc) v⟩
  | false => exact .inl ⟨_, rfl, rfl⟩

theorem penaliseBand : ByteOrderTwins (penaliseBand s) (penaliseBand s') :=
  List.foldl_rel (r := ByteOrderTwins) h fun r _ t t' ht => by
    rw [ht.readReg_eq]; exact ht.writeReg r _

theorem bumpCounter : ByteOrderTwins (bumpCounter s) (bumpCounter s') := by
  have hceiling : s'.launch.counterCeiling = s.launch.counterCeiling := by rw [h.launch_eq]
  unfold Machine.bumpCounter counterAddress
  rw [h.readReg_eq, h.memRead_eq, hceiling]
  cases memRead s (s.readReg basePtr + 4) with
  | error => exact h
  | ok c =>
    rcases h.memWrite_cases (s.readReg basePtr + 4) (counterNext s.launch.counterCeiling c) with
      ⟨e, he, he'⟩ | ⟨t, t', ht, ht', hsame⟩
    · simpa only [he, he'] using h
    · simpa only [ht, ht'] using hsame

/-- A fault raised in both leaves the same report (R186). -/
theorem raise (mk : FaultSite → Fault) : outcomesRelated ByteOrderTwins (· = ·) (raise mk s) (raise mk s') := by
  cases h; exact rfl

/-- Where there is no word to run, both are finished or both are stuck (R204). -/
theorem noStep : outcomesRelated ByteOrderTwins (· = ·) (noStep s) (noStep s') := by
  have heq : Machine.noStep s' = Machine.noStep s := by cases h; rfl
  rw [heq, Machine.noStep]
  split <;> exact rfl

/-- The execution unit faults in both alike, or writes the same register in both (R100). -/
theorem aluInto (op : AluOp) (rd : RegNum) (a b : Word) :
    outcomesRelated ByteOrderTwins (· = ·) (aluInto op rd a b s) (aluInto op rd a b s') := by
  unfold Machine.aluInto
  split
  · exact h.raise _
  · exact (h.writeReg _ _).advance

theorem execLw (rt rs : RegNum) (imm16 : BitVec 16) :
    outcomesRelated ByteOrderTwins (· = ·) (execLw rt rs imm16 s) (execLw rt rs imm16 s') := by
  unfold Machine.execLw
  rw [h.readReg_eq, h.memRead_eq]
  cases memRead s (effectiveAddress (s.readReg rs) imm16) with
  | error e => exact h.raise _
  | ok v => exact (h.writeReg rt v).advance

theorem execSw (rt rs : RegNum) (imm16 : BitVec 16) :
    outcomesRelated ByteOrderTwins (· = ·) (execSw rt rs imm16 s) (execSw rt rs imm16 s') := by
  unfold Machine.execSw
  rw [h.readReg_eq, h.readReg_eq]
  rcases h.memWrite_cases (effectiveAddress (s.readReg rs) imm16) (s.readReg rt) with
    ⟨e, he, he'⟩ | ⟨t, t', ht, ht', hsame⟩
  · rw [he, he']; exact h.raise _
  · rw [ht, ht']; exact hsame.advance

/-- An instruction does the same in both: everything it reads agrees, and every update keeps the relation. -/
theorem exec (i : Instr) : outcomesRelated ByteOrderTwins (· = ·) (exec i s) (exec i s') := by
  obtain ⟨order, mem, rfl⟩ := h.eq_withMemory
  cases i with
  | add | sub | mul | and | or | slt | addi =>
    simp only [Machine.exec, execAdd, execSub, execMul, execAnd, execOr, execSlt, execAddi]
    exact h.aluInto _ _ _ _
  | lw => exact h.execLw _ _ _
  | sw => exact h.execSw _ _ _
  | j | beq | bne => exact h.setPc _
  | jal => exact (h.writeReg _ _).setPc _
  | extract | ordeal => exact ((h.afterDraw.writeReg _ _).emitIf _ _ _).advance
  | suppress | ego => exact ((h.writeReg _ _).emitIf _ _ _).advance
  | winst | winsight | wattach | wrepress | panic => exact ((h.writeReg _ _).emit _).advance
  | meltdown => exact (h.penaliseBand.bumpCounter.emitIf _ _ _).advance

/-- Driving the detector keeps the relation of two outcomes (R209). -/
theorem driveDetector (w : Word) (v : Verdict) {o o' : Host.Outcome State Fault Refusal}
    (ho : outcomesRelated ByteOrderTwins (· = ·) o o') :
    outcomesRelated ByteOrderTwins (· = ·) (driveDetector w v s o) (driveDetector w v s' o') := by
  have hdet : s'.detector.observe s'.launch.roles (fieldsOf w) v =
      s.detector.observe s.launch.roles (fieldsOf w) v := by cases h; rfl
  rcases outcomesRelated_cases ho with ⟨t, t', rfl, rfl, ht⟩ | ⟨f, _, rfl, rfl, rfl⟩ | ⟨r, rfl, rfl⟩
  · simp only [Machine.driveDetector, hdet]; exact ht.setDetector _
  · simp only [Machine.driveDetector, hdet]; rfl
  · rfl

theorem step : outcomesRelated ByteOrderTwins (· = ·) (step s) (step s') := by
  have hfetch : s'.fetch = s.fetch := by cases h; rfl
  have horder : s'.launch.catalogOrder = s.launch.catalogOrder := by rw [h.launch_eq]
  unfold Machine.step
  rw [hfetch, horder]
  split
  · exact h.noStep
  · next w _ =>
    split
    · exact h.driveDetector w _ (h.raise _)
    · exact h.driveDetector w _ (h.exec _)

end ByteOrderTwins

/-- Settles O43: the relation of machines that hold the same words is kept by every step, so by every run. -/
theorem byteOrderIsUnobservable : Obligations.ByteOrderIsUnobservable := by
  intro n s s' hm hm' hsame
  have hrun := outcomesRelated_run (fun _ _ => ByteOrderTwins.step) n ((byteOrderTwins_iff s s').2 ⟨hm, hm', hsame⟩)
  exact outcomesRelated_mono (fun t t' h => ((byteOrderTwins_iff t t').1 h).2.2) hrun

end Sys2Proof.Machine
end

section
/-! PROOFS of the statements about the encoding: the bits that decide which row a word matches, the row the Dispatcher
selects under an order, packing and unpacking, the decoder's outputs, and the bits no instruction looks at. -/

namespace Sys2Proof

/-! ## The fields of a word -/

/-- The eight fields as numbers read off the word (R62). -/
theorem fieldsOf_toNat (w : Word) :
    (fieldsOf w).opcode.toNat = w.toNat / 2 ^ 26 ∧ (fieldsOf w).funct.toNat = w.toNat % 64 ∧
      (fieldsOf w).shamt.toNat = w.toNat / 2 ^ 6 % 32 ∧ (fieldsOf w).rs.val = w.toNat / 2 ^ 21 % 32 ∧
      (fieldsOf w).rt.val = w.toNat / 2 ^ 16 % 32 ∧ (fieldsOf w).rd.val = w.toNat / 2 ^ 11 % 32 ∧
      (fieldsOf w).imm16.toNat = w.toNat % 2 ^ 16 ∧ (fieldsOf w).target26.toNat = w.toNat % 2 ^ 26 := by
  have hw := w.isLt
  simp only [fieldsOf, BitVec.val_toFin, BitVec.extractLsb'_toNat, Nat.shiftRight_eq_div_pow, Nat.pow_zero,
    Nat.div_one, and_true]
  omega

/-- The opcode bits of a word, in their place. -/
theorem and_opcodeMask (w : Word) : w &&& (0xFC000000 : Word) = (fieldsOf w).opcode.zeroExtend 32 <<< 26 := by
  apply BitVec.eq_of_getLsbD_eq
  intro k hk
  interval_cases k <;> simp [fieldsOf]

/-- The funct bits of a word, in their place. -/
theorem and_functMask (w : Word) : w &&& (0x0000003F : Word) = (fieldsOf w).funct.zeroExtend 32 := by
  apply BitVec.eq_of_getLsbD_eq
  intro k hk
  interval_cases k <;> simp [fieldsOf]

theorem and_opcodeFunctMask (w : Word) :
    w &&& (0xFC00003F : Word) =
      ((fieldsOf w).opcode.zeroExtend 32 <<< 26) ||| (fieldsOf w).funct.zeroExtend 32 := by
  rw [← and_opcodeMask, ← and_functMask, ← BitVec.and_or_distrib_left]
  rfl

/-- The opcode and the funct in their places, with zeros between, as a number. -/
theorem fixedBits_toNat (a b : BitVec 6) :
    (a.zeroExtend 32 <<< 26 ||| b.zeroExtend 32 : Word).toNat = a.toNat * 2 ^ 26 + b.toNat := by
  have ha := a.isLt
  have hb := b.isLt
  rw [← Nat.shiftLeft_eq, Nat.shiftLeft_add_eq_or_of_lt (hb.trans (by decide)), BitVec.toNat_or,
    BitVec.toNat_shiftLeft, BitVec.toNat_setWidth, BitVec.toNat_setWidth, Nat.shiftLeft_eq,
    Nat.mod_eq_of_lt (a := a.toNat) (by omega), Nat.mod_eq_of_lt (a := b.toNat) (by omega),
    Nat.mod_eq_of_lt (by omega), Nat.shiftLeft_eq]

theorem fixedBits_inj {a a' b b' : BitVec 6} :
    (a.zeroExtend 32 <<< 26 ||| b.zeroExtend 32 : Word) = a'.zeroExtend 32 <<< 26 ||| b'.zeroExtend 32 ↔
      a = a' ∧ b = b' := by
  simp only [← BitVec.toNat_inj, fixedBits_toNat]
  omega

theorem opcodeBits_inj {a a' : BitVec 6} :
    (a.zeroExtend 32 <<< 26 : Word) = a'.zeroExtend 32 <<< 26 ↔ a = a' := by
  simpa using fixedBits_inj (a := a) (a' := a') (b := 0) (b' := 0)

/-! ## What decides which row a word matches -/

/-- The fixed bits of a row: its opcode and, in format R, its funct (R69, R70). -/
def Mnemonic.selector (m : Mnemonic) : BitVec 6 × Option (BitVec 6) := (m.descriptor.opcode, m.descriptor.funct)

/-- All that matching looks at in a word: the opcode, and the funct where the opcode is 0 (R79). -/
def wordSelector (w : Word) : BitVec 6 × Option (BitVec 6) :=
  ((fieldsOf w).opcode, if (fieldsOf w).opcode = 0 then some (fieldsOf w).funct else none)

/-- The rows with a funct are those with opcode 0 (R70). -/
theorem funct_eq_none_iff (m : Mnemonic) : m.descriptor.funct = none ↔ m.descriptor.opcode ≠ 0 := by
  cases m <;> decide

/-- Matching compares selectors: the mask and the match of a row say no more (R69). -/
theorem matchesWord_iff (m : Mnemonic) (w : Word) : m.matchesWord w = true ↔ m.selector = wordSelector w := by
  rw [Mnemonic.matchesWord, beq_iff_eq, Mnemonic.mask, Mnemonic.pattern, Mnemonic.selector, wordSelector,
    Prod.mk.injEq]
  have hfunct := funct_eq_none_iff m
  cases hf : m.descriptor.funct with
  | none =>
    dsimp only
    rw [and_opcodeMask, opcodeBits_inj, eq_comm, iff_self_and]
    intro h
    rw [if_neg (h ▸ hfunct.1 hf)]
  | some f =>
    dsimp only
    have h0 : m.descriptor.opcode = 0 := not_not.1 fun h => by simp [hfunct.2 h] at hf
    rw [and_opcodeFunctMask, fixedBits_inj, eq_comm, and_congr_right_iff]
    intro h
    rw [if_pos (h ▸ h0), Option.some.injEq, eq_comm]

/-- The opcode map lists the rows without a funct, each under its opcode (R77). -/
theorem mem_opcodeMap_iff (a : BitVec 6) (m : Mnemonic) : (a.toNat, m) ∈ opcodeMap ↔ m.selector = (a, none) := by
  cases m <;> simp [opcodeMap, Mnemonic.selector, Mnemonic.descriptor, ← BitVec.toNat_inj, eq_comm]

/-- The funct map lists the rows with a funct, each under it, but for mul and `and` (R77). -/
theorem mem_functMap_iff (f : BitVec 6) (m : Mnemonic) :
    (f.toNat, m) ∈ functMap ↔ f ≠ 0b100100 ∧ m.selector = (0, some f) := by
  cases m <;> simp [functMap, Mnemonic.selector, Mnemonic.descriptor, ← BitVec.toNat_inj, eq_comm] <;> omega

theorem wordSelector_of_opcode_ne_zero {w : Word} (h : w.toNat / 2 ^ 26 ≠ 0) :
    wordSelector w = ((fieldsOf w).opcode, none) := by
  obtain ⟨hopcode, -⟩ := fieldsOf_toNat w
  rw [wordSelector, if_neg fun h0 => h (by rw [← hopcode, h0]; rfl)]

theorem wordSelector_of_opcode_eq_zero {w : Word} (h : w.toNat / 2 ^ 26 = 0) :
    wordSelector w = (0, some (fieldsOf w).funct) := by
  obtain ⟨hopcode, -⟩ := fieldsOf_toNat w
  have h0 : (fieldsOf w).opcode = 0 := BitVec.eq_of_toNat_eq (hopcode.trans h)
  rw [wordSelector, if_pos h0, h0]

/-- Words that agree in the opcode bits and, under opcode 0, in the funct bits have the same selector (R79). -/
theorem wordSelector_congr {w w' : Word} (hopcode : w &&& (0xFC000000 : Word) = w' &&& 0xFC000000)
    (hfunct : w &&& (0xFC000000 : Word) = 0 → w &&& (0x0000003F : Word) = w' &&& 0x0000003F) :
    wordSelector w = wordSelector w' := by
  have hop : (fieldsOf w).opcode = (fieldsOf w').opcode :=
    opcodeBits_inj.1 (by rw [← and_opcodeMask, ← and_opcodeMask, hopcode])
  rw [wordSelector, wordSelector, ← hop]
  congr 1
  split
  · next h0 =>
    have hzero : w &&& (0xFC000000 : Word) = 0 := by rw [and_opcodeMask, h0]; rfl
    have hfixed := congrArg₂ (· ||| ·) hopcode (hfunct hzero)
    simp only [and_opcodeMask, and_functMask] at hfixed
    rw [(fixedBits_inj.1 hfixed).2]
  · rfl

/-! ## The rows of the catalog -/

theorem Mnemonic.mem_all (m : Mnemonic) : m ∈ Mnemonic.all := by cases m <;> decide

theorem mem_catalogOrder {order : List Mnemonic} (hok : catalogOrderOk order = true) (m : Mnemonic) : m ∈ order :=
  (List.isPerm_iff.1 hok).mem_iff.2 m.mem_all

theorem catalogOrderOk_default : catalogOrderOk defaultCatalogOrder = true := by decide

theorem collidesWith_eq_some_iff (m n : Mnemonic) :
    m.collidesWith = some n ↔ (m = .mul ∧ n = .and) ∨ (m = .and ∧ n = .mul) := by
  cases m <;> simp [Mnemonic.collidesWith, eq_comm]

theorem collidesWith_symm {m n : Mnemonic} (h : m.collidesWith = some n) : n.collidesWith = some m := by
  rcases (collidesWith_eq_some_iff m n).1 h with ⟨rfl, rfl⟩ | ⟨rfl, rfl⟩ <;> rfl

/-- The two rows that collide have the fixed bits of mul (R73). -/
theorem selector_of_collidesWith {m n : Mnemonic} (h : m.collidesWith = some n) :
    m.selector = Mnemonic.mul.selector := by
  rcases (collidesWith_eq_some_iff m n).1 h with ⟨rfl, -⟩ | ⟨rfl, -⟩ <;> rfl

/-- No other two rows have the same fixed bits (R72). -/
theorem eq_or_collidesWith_of_selector_eq {m n : Mnemonic} (h : m.selector = n.selector) :
    m = n ∨ m.collidesWith = some n := by
  have table : ∀ m ∈ Mnemonic.all, ∀ n ∈ Mnemonic.all,
      m.selector = n.selector → m = n ∨ m.collidesWith = some n := by decide
  exact table m m.mem_all n n.mem_all h

/-- The words of mul, which are the collision words (R73, R77). -/
theorem matchesWord_mul_iff (w : Word) :
    Mnemonic.mul.matchesWord w = true ↔ w.toNat / 2 ^ 26 = 0 ∧ w.toNat % 64 = 0b100100 := by
  obtain ⟨-, hfunct, -⟩ := fieldsOf_toNat w
  rw [matchesWord_iff, ← hfunct, show Mnemonic.mul.selector = (0, some 0b100100) from rfl]
  by_cases h : w.toNat / 2 ^ 26 = 0
  · rw [wordSelector_of_opcode_eq_zero h, Prod.mk.injEq, Option.some.injEq, eq_comm (a := 0b100100),
      ← BitVec.toNat_inj (y := 0b100100)]
    exact ⟨fun ⟨_, e⟩ => ⟨h, e⟩, fun ⟨_, e⟩ => ⟨rfl, e⟩⟩
  · rw [wordSelector_of_opcode_ne_zero h]
    exact ⟨fun e => (Option.some_ne_none _ (congrArg Prod.snd e)).elim, fun e => absurd e.1 h⟩

/-! ## The Dispatcher -/

/-- A row is reachable when it is registered before the row it collides with, if there is one (R72 to R74). -/
theorem reachable_iff (order : List Mnemonic) (m : Mnemonic) :
    m.reachable order = true ↔ ∀ n, m.collidesWith = some n → order.idxOf m < order.idxOf n := by
  rw [Mnemonic.reachable]
  cases m.collidesWith <;> simp

/-- Two words with the same selector go to the same row under every order (R79). -/
theorem dispatch_congr (order : List Mnemonic) {w w' : Word} (h : wordSelector w = wordSelector w') :
    dispatch order w = dispatch order w' :=
  congrArg order.find? (funext fun m => by rw [Bool.eq_iff_iff, matchesWord_iff, matchesWord_iff, h])

/-- Whatever the order, a selected row matches the word and is reachable: a row that collides with it and stood before
it would have matched first (R72). -/
theorem of_dispatch_eq_some {order : List Mnemonic} {w : Word} {m : Mnemonic} (h : dispatch order w = some m) :
    m.matchesWord w = true ∧ m.reachable order = true := by
  obtain ⟨hm, before, after, rfl, hbefore⟩ := List.find?_eq_some_iff_append.1 h
  refine ⟨hm, (reachable_iff _ m).2 fun n hcollide => ?_⟩
  have notMem_before {k : Mnemonic} (hk : k.matchesWord w = true) : k ∉ before := fun hmem => by
    simpa [hk] using hbefore k hmem
  have hn : n.matchesWord w = true := by
    rw [matchesWord_iff, selector_of_collidesWith (collidesWith_symm hcollide), ← selector_of_collidesWith hcollide,
      (matchesWord_iff m w).1 hm]
  have hne : m ≠ n := by
    rcases (collidesWith_eq_some_iff m n).1 hcollide with ⟨rfl, rfl⟩ | ⟨rfl, rfl⟩ <;> decide
  rw [List.idxOf_append_of_notMem (notMem_before hm), List.idxOf_append_of_notMem (notMem_before hn),
    List.idxOf_cons_self, List.idxOf_cons_ne _ hne]
  omega

/-- Of two rows that collide the one registered second is never selected (R74). -/
theorem dispatch_ne_of_collision {order : List Mnemonic} {m n : Mnemonic}
    (hcollide : m.collidesWith = some n) (hfirst : order.idxOf m < order.idxOf n) (w : Word) :
    dispatch order w ≠ some n := fun h => by
  obtain ⟨-, hreach⟩ := of_dispatch_eq_some h
  have := (reachable_iff order n).1 hreach m (collidesWith_symm hcollide)
  omega

section
variable {order : List Mnemonic} (hok : catalogOrderOk order = true) {w : Word}
include hok

/-- What the Dispatcher selects under a catalog order: the row that matches and is reachable (R72 to R74). -/
theorem dispatch_eq_some_iff (m : Mnemonic) :
    dispatch order w = some m ↔ m.matchesWord w = true ∧ m.reachable order = true := by
  refine ⟨of_dispatch_eq_some, fun ⟨hm, hreach⟩ => ?_⟩
  obtain ⟨n, hn⟩ : ∃ n, dispatch order w = some n :=
    Option.isSome_iff_exists.1 (List.find?_isSome.2 ⟨m, mem_catalogOrder hok m, hm⟩)
  obtain ⟨hnm, hnreach⟩ := of_dispatch_eq_some hn
  rcases eq_or_collidesWith_of_selector_eq (((matchesWord_iff m w).1 hm).trans ((matchesWord_iff n w).1 hnm).symm)
    with rfl | hcollide
  · exact hn
  · have hmn := (reachable_iff order m).1 hreach n hcollide
    have hnm := (reachable_iff order n).1 hnreach m (collidesWith_symm hcollide)
    omega

/-- Outside the collision words every order selects the one row that matches (R72). -/
theorem dispatch_eq_some_iff_matches (hmul : ¬ Mnemonic.mul.matchesWord w = true) (m : Mnemonic) :
    dispatch order w = some m ↔ m.matchesWord w = true := by
  rw [dispatch_eq_some_iff hok, and_iff_left_iff_imp]
  intro hm
  refine (reachable_iff order m).2 fun n hcollide => absurd ?_ hmul
  rw [matchesWord_iff, ← selector_of_collidesWith hcollide, (matchesWord_iff m w).1 hm]

/-- A collision word goes to the one of the two rows that is registered first (R74). -/
theorem dispatch_of_collision {m n : Mnemonic} (hcollide : m.collidesWith = some n)
    (hfirst : order.idxOf m < order.idxOf n) (hm : m.matchesWord w = true) : dispatch order w = some m := by
  refine (dispatch_eq_some_iff hok m).2 ⟨hm, (reachable_iff order m).2 fun k hk => ?_⟩
  cases hcollide.symm.trans hk
  exact hfirst

/-- Of mul and `and` one is registered first (R73). -/
theorem mul_or_and_first :
    order.idxOf Mnemonic.mul < order.idxOf Mnemonic.and ∨ order.idxOf Mnemonic.and < order.idxOf Mnemonic.mul := by
  refine Nat.lt_or_gt_of_ne fun h => ?_
  cases (List.idxOf_inj (mem_catalogOrder hok _)).1 h

end

/-- Settles O3: outside the collision words the selected row is the one that matches, which the maps list. -/
theorem opcodeAndFunctMapsSelectTheRow : Obligations.OpcodeAndFunctMapsSelectTheRow := by
  refine ⟨fun order hok w => ⟨fun hop m => ?_, fun hop hne m => ?_, fun hop hfunct => ?_⟩,
    fun w hop hfunct => ?_, rfl, rfl⟩
  · obtain ⟨hopcode, -⟩ := fieldsOf_toNat w
    rw [dispatch_eq_some_iff_matches hok (fun h => hop ((matchesWord_mul_iff w).1 h).1), matchesWord_iff,
      wordSelector_of_opcode_ne_zero hop, ← hopcode, mem_opcodeMap_iff]
  · obtain ⟨-, hfunct, -⟩ := fieldsOf_toNat w
    have hne' : (fieldsOf w).funct ≠ 0b100100 := fun h => hne (by rw [← hfunct, h]; rfl)
    rw [dispatch_eq_some_iff_matches hok (fun h => hne ((matchesWord_mul_iff w).1 h).2), matchesWord_iff,
      wordSelector_of_opcode_eq_zero hop, ← hfunct, mem_functMap_iff, and_iff_right hne']
  · have hword := (matchesWord_mul_iff w).2 ⟨hop, hfunct⟩
    exact (mul_or_and_first hok).imp (dispatch_of_collision hok rfl · hword) (dispatch_of_collision hok rfl · hword)
  · exact dispatch_of_collision catalogOrderOk_default (n := .and) rfl (by decide)
      ((matchesWord_mul_iff w).2 ⟨hop, hfunct⟩)

/-- Settles O4: two orders can differ on the words of two rows with the same fixed bits only. -/
theorem firstRegisteredMatchWins : Obligations.FirstRegisteredMatchWins := by
  refine ⟨fun order w m => ?_, fun order w => ?_, fun m n w hm hn => ?_, fun order order' hok hok' w hmul => ?_⟩
  · rw [dispatch, List.find?_eq_some_iff_append]
    simp only [Mnemonic.matchesWord, beq_iff_eq, Bool.not_eq_true', beq_eq_false_iff_ne, ← exists_and_left,
      and_left_comm]
  · simp [dispatch, Mnemonic.matchesWord]
  · have hm' := (matchesWord_iff m w).1 (beq_iff_eq.2 hm)
    have hn' := (matchesWord_iff n w).1 (beq_iff_eq.2 hn)
    exact (eq_or_collidesWith_of_selector_eq (hm'.trans hn'.symm)).imp_right (collidesWith_eq_some_iff m n).1
  · have hmul' : ¬ Mnemonic.mul.matchesWord w = true := fun h => hmul (beq_iff_eq.1 h)
    ext m
    rw [dispatch_eq_some_iff_matches hok hmul', dispatch_eq_some_iff_matches hok' hmul']

/-- Settles O5: a row is reached only if it is registered before the row it collides with. -/
theorem collisionReachesOneRowOnly : Obligations.CollisionReachesOneRowOnly := by
  refine ⟨dispatch_ne_of_collision (m := .mul) rfl (by decide), fun order hok =>
    ⟨fun hand => ?_, fun hmul => ?_, ?_⟩⟩
  · exact ⟨dispatch_ne_of_collision rfl hand, fun w hw => dispatch_of_collision hok rfl hand (beq_iff_eq.2 hw)⟩
  · exact ⟨dispatch_ne_of_collision rfl hmul, fun w hw => dispatch_of_collision hok rfl hmul (beq_iff_eq.2 hw)⟩
  · rintro ⟨⟨w, hw⟩, w', hw'⟩
    rcases mul_or_and_first hok with hmul | hand
    · exact dispatch_ne_of_collision rfl hmul w' hw'
    · exact dispatch_ne_of_collision rfl hand w hw

/-! ## Packing and unpacking -/

/-- Every instruction carries its row in its word and gets its fields back from it (R81). -/
theorem packing_statement (i : Instr) : Laws.Packing.Statement i :=
  match i with
  | .add rd rs rt shamt => Laws.Packing.add rd rs rt shamt
  | .sub rd rs rt shamt => Laws.Packing.sub rd rs rt shamt
  | .mul rd rs rt shamt => Laws.Packing.mul rd rs rt shamt
  | .and rd rs rt shamt => Laws.Packing.and rd rs rt shamt
  | .or rd rs rt shamt => Laws.Packing.or rd rs rt shamt
  | .slt rd rs rt shamt => Laws.Packing.slt rd rs rt shamt
  | .j target26 => Laws.Packing.j target26
  | .jal target26 => Laws.Packing.jal target26
  | .beq rs rt imm16 => Laws.Packing.beq rs rt imm16
  | .bne rs rt imm16 => Laws.Packing.bne rs rt imm16
  | .addi rt rs imm16 => Laws.Packing.addi rt rs imm16
  | .lw rt rs imm16 => Laws.Packing.lw rt rs imm16
  | .sw rt rs imm16 => Laws.Packing.sw rt rs imm16
  | .extract op0 op1 imm16 => Laws.Packing.extract op0 op1 imm16
  | .winst op0 op1 imm16 => Laws.Packing.winst op0 op1 imm16
  | .winsight op0 op1 imm16 => Laws.Packing.winsight op0 op1 imm16
  | .wattach op0 op1 imm16 => Laws.Packing.wattach op0 op1 imm16
  | .wrepress op0 op1 imm16 => Laws.Packing.wrepress op0 op1 imm16
  | .suppress op0 op1 imm16 => Laws.Packing.suppress op0 op1 imm16
  | .ordeal op0 op1 imm16 => Laws.Packing.ordeal op0 op1 imm16
  | .ego op0 op1 imm16 => Laws.Packing.ego op0 op1 imm16
  | .panic op0 op1 imm16 => Laws.Packing.panic op0 op1 imm16
  | .meltdown op0 op1 imm16 => Laws.Packing.meltdown op0 op1 imm16

/-- Decoding is the Dispatcher and then the fields (R75, R76). -/
theorem decode_eq_legal_iff (order : List Mnemonic) (w : Word) (i : Instr) :
    decode order w = .legal i ↔ ∃ m, dispatch order w = some m ∧ Instr.ofFields m (fieldsOf w) = i := by
  unfold decode decodeRecord
  cases dispatch order w <;> simp [recordOf]

/-- Settles O1: the packed word matches its row, and a row that is reachable and matches is the one selected. Packing
does not tell `and` from mul. -/
theorem decodeOfEncodeIsTheInstruction : Obligations.DecodeOfEncodeIsTheInstruction := by
  refine ⟨fun order hok i hreach => ?_, fun rd rs rt shamt => ?_⟩
  · obtain ⟨hmatch, hfields⟩ := packing_statement i
    exact (decode_eq_legal_iff ..).2 ⟨i.mnemonic, (dispatch_eq_some_iff hok _).2 ⟨hmatch, hreach⟩, hfields⟩
  · have hword : encode (.and rd rs rt shamt) = encode (.mul rd rs rt shamt) := rfl
    obtain ⟨hmatch, hfields⟩ := packing_statement (.mul rd rs rt shamt)
    rw [hword]
    exact (decode_eq_legal_iff ..).2
      ⟨.mul, (dispatch_eq_some_iff catalogOrderOk_default _).2 ⟨hmatch, by decide⟩, hfields⟩

/-- The word that the fields `d` make in row `m`, by the packing of the row's format (R81). -/
def packFields (m : Mnemonic) (d : Fields) : Word :=
  match m.descriptor.format with
  | .r => packR m d.rd d.rs d.rt d.shamt
  | .j => packJ m d.target26
  | .i | .iBranch => packI m d.rs d.rt d.imm16

theorem encode_ofFields (m : Mnemonic) (d : Fields) : encode (Instr.ofFields m d) = packFields m d := by
  cases m <;> rfl

theorem mask_of_format (m : Mnemonic) : m.mask = if m.descriptor.format = .r then 0xFC00003F else 0xFC000000 := by
  cases m <;> rfl

/-- The fields of format R and the fixed bits are all of a word (R62, R81). -/
theorem packR_fieldsOf {m : Mnemonic} {w : Word} (h : m.pattern = w &&& 0xFC00003F) :
    packR m (fieldsOf w).rd (fieldsOf w).rs (fieldsOf w).rt (fieldsOf w).shamt = w := by
  rw [packR, h]
  simp only [fieldsOf, BitVec.ofFin_toFin]
  apply BitVec.eq_of_getLsbD_eq
  intro k hk
  interval_cases k <;> simp

/-- The fields of formats I and I-BRANCH and the opcode bits are all of a word (R62, R81). -/
theorem packI_fieldsOf {m : Mnemonic} {w : Word} (h : m.pattern = w &&& 0xFC000000) :
    packI m (fieldsOf w).rs (fieldsOf w).rt (fieldsOf w).imm16 = w := by
  rw [packI, h]
  simp only [fieldsOf, BitVec.ofFin_toFin]
  apply BitVec.eq_of_getLsbD_eq
  intro k hk
  interval_cases k <;> simp

/-- The target and the opcode bits are all of a word (R62, R81). -/
theorem packJ_fieldsOf {m : Mnemonic} {w : Word} (h : m.pattern = w &&& 0xFC000000) :
    packJ m (fieldsOf w).target26 = w := by
  rw [packJ, h]
  simp only [fieldsOf]
  apply BitVec.eq_of_getLsbD_eq
  intro k hk
  interval_cases k <;> simp

/-- Packing the fields of a word in a row that it matches gives the word back (R81). -/
theorem packFields_fieldsOf {m : Mnemonic} {w : Word} (h : m.matchesWord w = true) :
    packFields m (fieldsOf w) = w := by
  have hpattern : w &&& m.mask = m.pattern := beq_iff_eq.1 h
  rw [mask_of_format] at hpattern
  unfold packFields
  cases hformat : m.descriptor.format with
  | r => exact packR_fieldsOf (by simpa [hformat] using hpattern.symm)
  | j => exact packJ_fieldsOf (by simpa [hformat] using hpattern.symm)
  | i | iBranch => exact packI_fieldsOf (by simpa [hformat] using hpattern.symm)

/-- Settles O2: the selected row matches the word, so its fixed bits and its fields make up the word. -/
theorem encodeOfDecodeIsTheWord : Obligations.EncodeOfDecodeIsTheWord := by
  intro order w i h
  obtain ⟨m, hm, rfl⟩ := (decode_eq_legal_iff order w i).1 h
  rw [encode_ofFields, packFields_fieldsOf (of_dispatch_eq_some hm).1]

/-! ## The outputs of the decoder -/

theorem mnemonic_ofFields (m : Mnemonic) (d : Fields) : (Instr.ofFields m d).mnemonic = m := by cases m <;> rfl

theorem operands_ofFields (m : Mnemonic) (d : Fields) :
    (Instr.ofFields m d).operands = operandVector m.descriptor.format d := by cases m <;> rfl

theorem descriptor_format (m : Mnemonic) : m.descriptor.format = formatOf m := by cases m <;> rfl

theorem descriptor_idx (m : Mnemonic) : m.descriptor.idx.toNat = Mnemonic.all.idxOf m := by cases m <;> rfl

/-- Settles O6: the fields as numbers, and the record of the selected row, with the idx and format of the
table. -/
theorem operandVectorsReadTheFields : Obligations.OperandVectorsReadTheFields := by
  refine ⟨fun w => ?_, fun order w => ⟨fun hnone => ?_, fun m hm => ?_⟩⟩
  · obtain ⟨hopcode, hfunct, hshamt, hrs, hrt, hrd, himm, htarget⟩ := fieldsOf_toNat w
    simp only [operandVector, hrd, hrs, hrt, himm, htarget, hopcode, hfunct, hshamt, and_self]
  · simp [decode, decodeRecord, hnone]
  · refine ⟨recordOf m w, Instr.ofFields m (fieldsOf w), by rw [decodeRecord, hm]; rfl,
      (decode_eq_legal_iff order w _).2 ⟨m, hm, rfl⟩, descriptor_idx m, rfl, descriptor_format m, rfl, ?_,
      mnemonic_ofFields m _, operands_ofFields m _⟩
    rw [← descriptor_format]
    rfl

end Sys2Proof

namespace Sys2Proof.Machine

/-! ## Don't-care bits -/

/-- A register operand, or 0 where the roles leave its slot unused. -/
def keepReg (used : List Slot) (slot : Slot) (r : RegNum) : RegNum := if used.contains slot then r else 0

/-- The immediate, or 0 where the index is read from a register. -/
def keepImm (ix : IndexSlot) (imm16 : BitVec 16) : BitVec 16 := if ix == .imm then imm16 else 0

theorem keepReg_used_or_zero (used : List Slot) (slot : Slot) (r : RegNum) :
    (used.contains slot || keepReg used slot r == 0) = true := by
  unfold keepReg
  cases used.contains slot <;> simp

theorem unusedIsZero_keepReg (used : List Slot) (op0 op1 : RegNum) :
    unusedIsZero used (keepReg used .op0 op0) (keepReg used .op1 op1) = true := by
  rw [unusedIsZero, keepReg_used_or_zero, keepReg_used_or_zero]
  rfl

theorem immUsedOrZero_keepImm (ix : IndexSlot) (imm16 : BitVec 16) : immUsedOrZero ix (keepImm ix imm16) = true := by
  cases ix <;> simp [immUsedOrZero, keepImm]

theorem slotReg_keepReg {used : List Slot} {slot : Slot} (h : slot ∈ used) (op0 op1 : RegNum) :
    slotReg slot (keepReg used .op0 op0) (keepReg used .op1 op1) = slotReg slot op0 op1 := by
  cases slot <;> simp [slotReg, keepReg, h]

theorem index_keepReg_keepImm {used : List Slot} {ix : IndexSlot} (h : ix.slots ⊆ used) (op0 op1 : RegNum)
    (imm16 : BitVec 16) (s : State) :
    s.index ix (keepReg used .op0 op0) (keepReg used .op1 op1) (keepImm ix imm16) = s.index ix op0 op1 imm16 := by
  cases ix with
  | imm => simp [State.index, keepImm]
  | reg slot => simp only [State.index, slotReg_keepReg (h (List.mem_singleton_self slot))]

/-- The instruction with every don't-care bit 0 (R79); what jumps, branches, addi, lw and sw encode is all used. -/
def canonicalForm (roles : Roles) : Instr → Instr
  | .add rd rs rt _ => .add rd rs rt 0
  | .sub rd rs rt _ => .sub rd rs rt 0
  | .mul rd rs rt _ => .mul rd rs rt 0
  | .and rd rs rt _ => .and rd rs rt 0
  | .or rd rs rt _ => .or rd rs rt 0
  | .slt rd rs rt _ => .slt rd rs rt 0
  | .extract op0 op1 imm16 =>
    let used := roles.extractDest :: roles.extractBase :: roles.extractIndex.slots
    .extract (keepReg used .op0 op0) (keepReg used .op1 op1) (keepImm roles.extractIndex imm16)
  | .winst op0 op1 imm16 =>
    let used := [roles.winst.dest, roles.winst.src]
    .winst (keepReg used .op0 op0) (keepReg used .op1 op1) imm16
  | .winsight op0 op1 imm16 =>
    let used := [roles.winsight.dest, roles.winsight.src]
    .winsight (keepReg used .op0 op0) (keepReg used .op1 op1) imm16
  | .wattach op0 op1 imm16 =>
    let used := [roles.wattach.dest, roles.wattach.src]
    .wattach (keepReg used .op0 op0) (keepReg used .op1 op1) imm16
  | .wrepress op0 op1 imm16 =>
    let used := [roles.wrepress.dest, roles.wrepress.src]
    .wrepress (keepReg used .op0 op0) (keepReg used .op1 op1) imm16
  | .suppress op0 op1 imm16 =>
    let used := roles.suppressAgent :: roles.suppressAbno :: roles.suppressIndex.slots
    .suppress (keepReg used .op0 op0) (keepReg used .op1 op1) (keepImm roles.suppressIndex imm16)
  | .ordeal op0 op1 imm16 =>
    let used := roles.ordealIndex.slots
    .ordeal (keepReg used .op0 op0) (keepReg used .op1 op1) (keepImm roles.ordealIndex imm16)
  | .ego op0 op1 imm16 =>
    let used := roles.egoDest :: roles.egoIndex.slots
    .ego (keepReg used .op0 op0) (keepReg used .op1 op1) (keepImm roles.egoIndex imm16)
  | .panic op0 op1 _ =>
    .panic (keepReg [roles.panicTarget] .op0 op0) (keepReg [roles.panicTarget] .op1 op1) 0
  | .meltdown _ _ _ => .meltdown 0 0 0
  | i => i

theorem canonical_canonicalForm (roles : Roles) (i : Instr) : (canonicalForm roles i).canonical roles = true := by
  cases i with
  | meltdown => rfl
  | _ => simp [canonicalForm, Instr.canonical, unusedIsZero_keepReg, immUsedOrZero_keepImm]

theorem mnemonic_canonicalForm (roles : Roles) (i : Instr) : (canonicalForm roles i).mnemonic = i.mnemonic := by
  cases i <;> rfl

/-- No instruction reads a don't-care bit: every operand slot in a role, and the index, read the same (R79). -/
theorem exec_canonicalForm (i : Instr) (s : State) : exec (canonicalForm s.launch.roles i) s = exec i s := by
  cases i with
  | add | sub | mul | and | or | slt | j | jal | beq | bne | addi | lw | sw | meltdown => rfl
  | winst | winsight | wattach | wrepress | panic =>
    simp [exec, canonicalForm, execWinst, execWinsight, execWattach, execWrepress, work, execPanic, slotReg_keepReg]
  | extract =>
    have hslots := List.subset_cons_of_subset s.launch.roles.extractDest
      (List.subset_cons_self s.launch.roles.extractBase s.launch.roles.extractIndex.slots)
    simp [exec, canonicalForm, execExtract, extractWith, slotReg_keepReg, index_keepReg_keepImm hslots]
  | suppress =>
    have hslots := List.subset_cons_of_subset s.launch.roles.suppressAgent
      (List.subset_cons_self s.launch.roles.suppressAbno s.launch.roles.suppressIndex.slots)
    simp [exec, canonicalForm, execSuppress, slotReg_keepReg, index_keepReg_keepImm hslots]
  | ordeal =>
    have hslots := List.Subset.refl s.launch.roles.ordealIndex.slots
    simp [exec, canonicalForm, execOrdeal, ordealWith, index_keepReg_keepImm hslots]
  | ego =>
    have hslots := List.subset_cons_self s.launch.roles.egoDest s.launch.roles.egoIndex.slots
    simp [exec, canonicalForm, execEgo, slotReg_keepReg, index_keepReg_keepImm hslots]

/-- Settles O7: the selectors agree, and an instruction executes as its canonical form, which under the default roles is
the one the rule lists. -/
theorem dontCareBitsAreIgnored : Obligations.DontCareBitsAreIgnored := by
  refine ⟨fun order w w' hop hfunct => ?_, fun s rd rs rt shamt => ⟨rfl, rfl, rfl, rfl, rfl, rfl⟩,
    fun s op0 op1 imm16 hroles => ?_, fun roles i => ⟨canonicalForm roles i, ?_⟩⟩
  · exact dispatch_congr order (wordSelector_congr hop hfunct)
  · have hcanonical (i : Instr) : exec i s = exec (canonicalForm defaultRoles i) s := by
      rw [← hroles, exec_canonicalForm]
    exact ⟨hcanonical _, hcanonical _, hcanonical _, hcanonical _⟩
  · refine ⟨canonical_canonicalForm roles i, mnemonic_canonicalForm roles i, ?_⟩
    rintro s rfl
    exact (exec_canonicalForm i s).symm

end Sys2Proof.Machine
end

section
/-! PROOFS of the statements about the base arithmetic and logic: the sign tests as signed overflow, the register the
execution unit writes and what it leaves, and the seven instructions that run it. -/

namespace Sys2Proof.Machine

/-! ## The sign tests -/

/-- The sign test of R102 is the library's signed overflow of a subtraction. -/
theorem subOvf_eq_ssubOverflow (a b : Word) : subOvf a b = a.ssubOverflow b := by
  rw [BitVec.ssubOverflow_eq, subOvf, sign, sign, sign]
  cases a.msb <;> cases b.msb <;> simp

/-- `SubOvf` holds exactly where the exact difference is not a signed 32-bit number (R102). -/
theorem subOvf_iff (a b : Word) : subOvf a b = true ↔ ¬ fits32 (a.toInt - b.toInt) := by
  rw [subOvf_eq_ssubOverflow, BitVec.ssubOverflow, fits32]
  simp only [Bool.or_eq_true, decide_eq_true_eq]
  omega

/-- Subtracting the least number overflows exactly from the numbers that are not negative (R102). -/
theorem subOvf_intMin_iff (a : Word) : subOvf a 0x80000000 = true ↔ 0 ≤ a.toInt := by
  have hmin : (0x80000000 : Word).toInt = -2 ^ 31 := by decide
  have hlo := BitVec.le_toInt a
  rw [subOvf_iff, fits32, hmin]
  omega

/-- Settles O13: `AddOvf` and `SubOvf` are the library's signed overflows, which speak of the exact sum and
difference. -/
theorem overflowMeansOutOfSignedRange : Obligations.OverflowMeansOutOfSignedRange := by
  intro a b
  refine ⟨?_, addOvf_iff a b, ?_, subOvf_iff a b, subOvf_intMin_iff a⟩
  · simp [addOvf, sign]
  · simp [subOvf, sign]

/-! ## One register written, and the next instruction -/

theorem wroteReg_writeReg_advance (s : State) (r : RegNum) (v : Word) : wroteReg r v s (s.writeReg r v).advance :=
  ⟨readReg_writeReg_same s r v, fun _ hq => readReg_writeReg_ne s v (List.ne_of_not_mem_cons hq)⟩

theorem onlyRegsAndPc_writeReg_advance (s : State) (r : RegNum) (v : Word) :
    onlyRegsAndPc s (s.writeReg r v).advance := by
  refine ⟨?_, fun a => ?_, ⟨?_, ?_⟩, ?_, ?_⟩ <;> simp

/-- The exact outcome of the execution unit where its overflow output is clear (R100). -/
theorem aluInto_of_not_ovf {op : AluOp} {a b : Word} (h : aluOvf op a b = false) (rd : RegNum) (s : State) :
    aluInto op rd a b s = .next (s.writeReg rd (aluResult op a b)).advance := by
  rcases aluInto_cases op rd a b s with ⟨h', -⟩ | ⟨-, e⟩
  · rw [h] at h'; cases h'
  · exact e

/-- Where the overflow output is clear, the unit writes its result to the destination and nothing else changes. -/
theorem aluInto_writes_result {op : AluOp} {a b : Word} (h : aluOvf op a b = false) (rd : RegNum) (s : State) :
    ∃ t, aluInto op rd a b s = .next t ∧ wroteReg rd (aluResult op a b) s t ∧ onlyRegsAndPc s t :=
  ⟨_, aluInto_of_not_ovf h rd s, wroteReg_writeReg_advance .., onlyRegsAndPc_writeReg_advance ..⟩

/-! ## add, sub and addi -/

/-- An operation that computes the integer `n` modulo 2^32, and whose overflow output says that `n` is no signed 32-bit
number, writes `n` or raises ArithmeticOverflow (R100, R101, R102). -/
theorem aluInto_exact_or_overflows {op : AluOp} {a b : Word} {n : Int}
    (hovf : aluOvf op a b = true ↔ ¬ fits32 n) (hresult : aluResult op a b = BitVec.ofInt 32 n)
    (rd : RegNum) (s : State) :
    (fits32 n → ∃ t, aluInto op rd a b s = .next t ∧ wroteReg rd (BitVec.ofInt 32 n) s t ∧ onlyRegsAndPc s t) ∧
    (¬ fits32 n → aluInto op rd a b s =
      .fault (.arithmeticOverflow { pc := s.pc, word := s.fetch, detector := s.detector })) := by
  constructor
  · intro hfits
    have hclear : aluOvf op a b = false := Bool.eq_false_iff.2 fun h => hovf.1 h hfits
    rw [← hresult]
    exact aluInto_writes_result hclear rd s
  · intro hout
    exact aluInto_of_ovf (hovf.2 hout) rd s

theorem aluResult_add (a b : Word) : aluResult .add a b = BitVec.ofInt 32 (a.toInt + b.toInt) := by
  simp [aluResult, BitVec.ofInt_add]

theorem aluResult_sub (a b : Word) : aluResult .sub a b = BitVec.ofInt 32 (a.toInt - b.toInt) := by
  simp [aluResult, Int.sub_eq_add_neg, BitVec.ofInt_add, BitVec.ofInt_neg, BitVec.sub_eq_add_neg]

theorem toInt_sext32 (imm16 : BitVec 16) : (sext32 imm16).toInt = imm16.toInt :=
  BitVec.toInt_signExtend_of_le (by decide)

/-- Settles O14: add is the unit's addition, exact where the sign test is clear. -/
theorem addWritesTheSumOrOverflows : Obligations.AddWritesTheSumOrOverflows := by
  intro s rd rs rt _
  exact aluInto_exact_or_overflows (op := .add) (addOvf_iff _ _) (aluResult_add _ _) rd s

/-- Settles O15: sub is the unit's subtraction with minuend `x[rs]`, exact where the sign test is clear. -/
theorem subWritesTheDifferenceOrOverflows : Obligations.SubWritesTheDifferenceOrOverflows := by
  intro s rd rs rt _
  exact aluInto_exact_or_overflows (op := .sub) (subOvf_iff _ _) (aluResult_sub _ _) rd s

/-- Settles O16: addi is the unit's addition, and sign extension keeps the immediate's value. -/
theorem addiWritesTheSumOrOverflows : Obligations.AddiWritesTheSumOrOverflows := by
  intro s rt rs imm16
  rw [← toInt_sext32]
  exact aluInto_exact_or_overflows (op := .add) (addOvf_iff _ _) (aluResult_add _ _) rt s

/-! ## mul, and, or, slt -/

/-- The low half of the exact product does not depend on how the operands are read (R105). -/
theorem ofInt_mul_toInt (a b : Word) :
    BitVec.ofInt 32 (a.toInt * b.toInt) = BitVec.ofNat 32 (a.toNat * b.toNat) := by
  calc BitVec.ofInt 32 (a.toInt * b.toInt)
      = a * b := by rw [BitVec.ofInt_mul, BitVec.ofInt_toInt, BitVec.ofInt_toInt]
    _ = BitVec.ofNat 32 (a.toNat * b.toNat) := by simp [BitVec.ofNat_mul]

/-- Settles O17: the unit's product never sets the overflow output. -/
theorem mulWritesTheLowHalf : Obligations.MulWritesTheLowHalf := by
  intro s rd rs rt _
  obtain ⟨t, hexec, hwrote, honly⟩ := aluInto_writes_result (op := .mul) rfl rd s
  exact ⟨t, _, hexec, hwrote, honly, rfl, ofInt_mul_toInt _ _⟩

/-- Settles O18: the unit's `and` and `or` are the bitwise operations and never set the overflow output. -/
theorem andAndOrAreBitwise : Obligations.AndAndOrAreBitwise := by
  intro s rd rs rt _
  constructor
  · obtain ⟨t, hexec, hwrote, honly⟩ := aluInto_writes_result (op := .and) rfl rd s
    exact ⟨t, _, hexec, hwrote, honly, fun _ => BitVec.getLsbD_and⟩
  · obtain ⟨t, hexec, hwrote, honly⟩ := aluInto_writes_result (op := .or) rfl rd s
    exact ⟨t, _, hexec, hwrote, honly, fun _ => BitVec.getLsbD_or⟩

/-- Settles O19: the unit's result is 1 or 0 by the signed comparison, and the overflow output is never set. -/
theorem sltComparesSignedValues : Obligations.SltComparesSignedValues := by
  intro s rd rs rt _
  obtain ⟨t, hexec, hwrote, honly⟩ := aluInto_writes_result (op := .slt) rfl rd s
  refine ⟨t, hexec, honly, fun hlt => ?_, fun hge => ?_⟩
  · rwa [aluResult, if_pos hlt] at hwrote
  · rwa [aluResult, if_neg (Int.not_lt.2 hge)] at hwrote

end Sys2Proof.Machine
end

section
/-! PROOFS of the statements about control: what a step does with the word it fetches and with a word just placed, the
targets of jumps and branches in exact arithmetic, and the pc unit. -/

namespace Sys2Proof.Machine

/-! ## The step -/

section
variable {s : State} {w : Word}

/-- The step of a word that decodes (R120, R209). -/
theorem step_of_legal {i : Instr} (hfetch : s.fetch = some w) (hdecode : decode s.launch.catalogOrder w = .legal i) :
    step s = driveDetector w (.legal i) s (exec i s) := by
  simp only [step, hfetch, hdecode]

/-- The step of a word that matches nothing (R120, R183, R209). -/
theorem step_of_illegal {v : Word} (hfetch : s.fetch = some w)
    (hdecode : decode s.launch.catalogOrder w = .illegal v) :
    step s = driveDetector w (.illegal v) s (raiseIllegal v s) := by
  simp only [step, hfetch, hdecode]

end

/-- The word a verdict names as illegal is the word decoded (R76). -/
theorem eq_of_decode_eq_illegal {order : List Mnemonic} {w v : Word} (h : decode order w = .illegal v) : v = w := by
  unfold decode at h
  split at h <;> cases h
  rfl

/-- Settles O9: the detector is driven on the outcome of `exec`, or on the IllegalInstruction raised for the word. -/
theorem stepRunsTheDecodedInstruction : Obligations.StepRunsTheDecodedInstruction := by
  intro s w hfetch
  refine ⟨fun i hdecode => ⟨fun t hexec => ?_, fun f hexec => ?_⟩, fun v hdecode => ?_⟩
  · rw [step_of_legal hfetch hdecode, hexec, driveDetector]
  · rw [step_of_legal hfetch hdecode, hexec, driveDetector]
  · obtain rfl := eq_of_decode_eq_illegal hdecode
    refine ⟨rfl, ?_⟩
    rw [step_of_illegal hfetch hdecode, raiseIllegal, raise, State.site, hfetch, driveDetector, Fault.withDetector]

/-! ## Placing a word -/

/-- A table row of 32 bits is its own instruction word (R60). -/
theorem tableWord_toNat (w : Word) : tableWord 32 w.toNat = w := by
  rw [tableWord, Nat.mod_eq_of_lt w.isLt, BitVec.ofNat_toNat, BitVec.setWidth_eq]

/-- Settles O10: placing inserts the packed word at the pc in `IMem`, where it is fetched, and decoding gives the packed
instruction back. -/
theorem placedWordIsDecodedNext : Obligations.PlacedWordIsDecodedNext := by
  intro s i hok hwf
  have hplace : s.withFetchWord 32 (encode i).toNat = s.placeWord (encode i) := by
    rw [State.withFetchWord, tableWord_toNat]
  rw [hplace]
  refine ⟨fetch_placeWord s _, decodeOfEncodeIsTheInstruction.1 _ hok i hwf, fun a ha => ?_, rfl⟩
  rw [State.placeWord, imemAt_imemInsert, if_neg ha]

/-! ## Targets in exact arithmetic -/

/-- The top four bits of a word are its 256 MiB region (R122). -/
theorem and_regionMask_toNat (a : Word) : (a &&& 0xF0000000 : Word).toNat = a.toNat / 2 ^ 28 * 2 ^ 28 := by
  have hshifts : a &&& (0xF0000000 : Word) = a >>> 28 <<< 28 := by
    apply BitVec.eq_of_getLsbD_eq
    intro k hk
    interval_cases k <;> simp
  rw [hshifts, BitVec.toNat_shiftLeft, BitVec.toNat_ushiftRight, Nat.shiftRight_eq_div_pow, Nat.shiftLeft_eq]
  omega

theorem zeroExtend_shiftLeft_two_toNat (target26 : BitVec 26) :
    (target26.zeroExtend 32 <<< 2 : Word).toNat = 4 * target26.toNat := by
  rw [BitVec.toNat_shiftLeft, BitVec.toNat_setWidth, Nat.shiftLeft_eq]
  omega

/-- The jump target is a sum: the offset is below the bits of the region (R68, R122). -/
theorem jumpTarget_toNat (pc : Word) (target26 : BitVec 26) :
    (jumpTarget pc target26).toNat = (pc.toNat + 4) % 2 ^ 32 / 2 ^ 28 * 2 ^ 28 + 4 * target26.toNat := by
  have hoffset : 4 * target26.toNat < 2 ^ 28 := by omega
  have hfollowing : (pc + 4).toNat = (pc.toNat + 4) % 2 ^ 32 := BitVec.toNat_add pc 4
  rw [jumpTarget, BitVec.toNat_or, and_regionMask_toNat, zeroExtend_shiftLeft_two_toNat, hfollowing,
    ← Nat.shiftLeft_eq, Nat.shiftLeft_add_eq_or_of_lt hoffset]

/-- The branch target is the exact sum modulo 2^32 (R124). -/
theorem branchTarget_eq_ofInt (pc : Word) (imm16 : BitVec 16) :
    branchTarget pc imm16 = BitVec.ofInt 32 (pc.toNat + 4 + 4 * imm16.toInt) := by
  have hoffset : sext32 imm16 <<< 2 = BitVec.ofInt 32 (4 * imm16.toInt) := by
    rw [BitVec.shiftLeft_eq_mul_twoPow, BitVec.mul_comm, BitVec.ofInt_mul]
    rfl
  have hfollowing : pc + 4 = BitVec.ofInt 32 (pc.toNat + 4) := by
    rw [BitVec.ofInt_add, BitVec.ofInt_natCast, BitVec.ofNat_toNat, BitVec.setWidth_eq]
    rfl
  rw [branchTarget, hfollowing, hoffset, ← BitVec.ofInt_add]

/-! ## Jumps and branches -/

/-- A new pc changes nothing else (R120). -/
theorem setPc_frame (s : State) (pc : Word) :
    regsKept [] s (s.setPc pc) ∧ memKept s (s.setPc pc) ∧ quiet s (s.setPc pc) ∧ backgroundKept s (s.setPc pc) :=
  ⟨fun _ _ => rfl, fun _ => rfl, ⟨rfl, rfl⟩, rfl, rfl⟩

/-- Settles O21: both jumps set the pc to the region target, jal after the link is written. The frame of a register write
does not look at the pc, so it holds with any other one. -/
theorem jumpsGoToTheRegionTarget : Obligations.JumpsGoToTheRegionTarget := by
  intro s target26
  refine ⟨⟨_, rfl, jumpTarget_toNat .., setPc_frame ..⟩, _, rfl, jumpTarget_toNat .., ?_⟩
  have hlink := wroteReg_writeReg_advance s 31 (s.pc + 4)
  obtain ⟨-, hmem, hquiet, hbackground⟩ := onlyRegsAndPc_writeReg_advance s 31 (s.pc + 4)
  exact ⟨hlink, hmem, hquiet, hbackground⟩

/-- The pc after a beq (R125). -/
theorem branchPc_beq (a b pc : Word) (imm16 : BitVec 16) :
    branchPc (a == b) pc imm16 = if a = b then branchTarget pc imm16 else pc + 4 := by
  simp only [branchPc, beq_iff_eq]

/-- The pc after a bne (R126). -/
theorem branchPc_bne (a b pc : Word) (imm16 : BitVec 16) :
    branchPc (a != b) pc imm16 = if a ≠ b then branchTarget pc imm16 else pc + 4 := by
  simp only [branchPc, bne_iff_ne]

/-- Settles O22: a branch only sets the pc, by the comparison, and its target is the exact sum modulo 2^32. -/
theorem branchesCompareAndGoToTheTarget : Obligations.BranchesCompareAndGoToTheTarget := by
  intro s rs rt imm16
  rw [← branchTarget_eq_ofInt]
  refine ⟨⟨_, rfl, branchPc_beq .., setPc_frame ..⟩, _, rfl, ?_, setPc_frame ..⟩
  rw [setPc_pc, branchPc_bne, ite_not]

/-! ## The pc unit -/

/-- The execution unit, where it completes, advances (R100, R121). -/
theorem pc_of_aluInto {op : AluOp} {rd : RegNum} {a b : Word} {s t : State}
    (h : aluInto op rd a b s = .next t) : t.pc = s.pc + 4 := by
  rcases aluInto_cases op rd a b s with ⟨-, e⟩ | ⟨-, e⟩
  · rw [e] at h; cases h
  · rw [e] at h; cases h; simp

theorem pc_of_execLw {rt rs : RegNum} {imm16 : BitVec 16} {s t : State}
    (h : execLw rt rs imm16 s = .next t) : t.pc = s.pc + 4 := by
  cases hacc : s.accessible (effectiveAddress (s.readReg rs) imm16) .load with
  | true => rw [execLw_of_accessible hacc] at h; cases h; simp
  | false => rw [execLw_of_not_accessible hacc] at h; cases h

theorem pc_of_execSw {rt rs : RegNum} {imm16 : BitVec 16} {s t : State}
    (h : execSw rt rs imm16 s = .next t) : t.pc = s.pc + 4 := by
  cases hacc : s.accessible (effectiveAddress (s.readReg rs) imm16) .store with
  | true => rw [execSw_of_accessible hacc] at h; cases h; rfl
  | false => rw [execSw_of_not_accessible hacc] at h; cases h

/-- Step (a) of meltdown leaves the pc alone (R164). -/
@[simp] theorem penaliseBand_pc (s : State) : (penaliseBand s).pc = s.pc := by
  simp [penaliseBand, bandRegs]

/-- Step (b) of meltdown leaves the pc alone (R164). -/
@[simp] theorem bumpCounter_pc (s : State) : (bumpCounter s).pc = s.pc := by
  rcases bumpCounter_cases s with ⟨-, e⟩ | ⟨-, e⟩ <;> rw [e]

/-- The pc unit says where every instruction that completes goes (R129). -/
theorem pc_of_exec {i : Instr} {s t : State} (h : exec i s = .next t) : t.pc = nextPc i s := by
  cases i with
  | add | sub | mul | and | or | slt | addi =>
    simp only [exec, execAdd, execSub, execMul, execAnd, execOr, execSlt, execAddi] at h
    exact pc_of_aluInto h
  | lw => exact pc_of_execLw h
  | sw => exact pc_of_execSw h
  | j | jal | beq | bne => cases h; rfl
  | suppress | ego | winst | winsight | wattach | wrepress | panic => cases h; simp [work, nextPc]
  | extract | ordeal => cases h; simp [extractWith, ordealWith, nextPc]
  | meltdown => cases h; simp [nextPc]

/-- Only the four transfers leave the sequence (R121). -/
theorem nextPc_of_not_transfer {i : Instr} (h : i.mnemonic ∉ [Mnemonic.j, .jal, .beq, .bne]) (s : State) :
    nextPc i s = s.pc + 4 := by
  cases i with
  | j | jal | beq | bne => simp [Instr.mnemonic] at h
  | _ => rfl

/-- The pc unit keeps the pc a multiple of 4 (R27, R129). -/
theorem nextPc_aligned (i : Instr) {s : State} (h : s.pc.toNat % 4 = 0) : (nextPc i s).toNat % 4 = 0 := by
  cases i with
  | j target26 | jal target26 => exact jumpTarget_aligned s.pc target26
  | beq _ _ imm16 | bne _ _ imm16 => exact branchPc_aligned _ imm16 h
  | _ => exact next_aligned h

/-- Settles O23: the next pc is the pc unit's, which is then read off case by case. -/
theorem pcUnitGivesTheNextPc : Obligations.PcUnitGivesTheNextPc := by
  intro i s t h
  rw [pc_of_exec h]
  refine ⟨rfl, ?_, ?_, ?_, fun hi => nextPc_of_not_transfer hi s, nextPc_aligned i⟩
  · rintro target26 (rfl | rfl) <;> rfl
  · rintro rs rt imm16 rfl
    exact branchPc_beq ..
  · rintro rs rt imm16 rfl
    exact branchPc_bne ..

end Sys2Proof.Machine
end

section
/-! PROOFS of the statements about loads and stores: the effective address in exact arithmetic, and what lw and sw do at
an accessible address and at any other. -/

namespace Sys2Proof.Machine

/-- The effective address is the exact sum modulo 2^32 (R140). -/
theorem effectiveAddress_eq_ofInt (base : Word) (imm16 : BitVec 16) :
    effectiveAddress base imm16 = BitVec.ofInt 32 (base.toInt + imm16.toInt) := by
  rw [effectiveAddress, ← toInt_sext32, BitVec.ofInt_add, BitVec.ofInt_toInt, BitVec.ofInt_toInt]

/-- A transfer completes where the address is aligned and valid for the kind (R43, R44). -/
theorem accessible_of_aligned_of_addrOk {s : State} {a : Word} {kind : AccessKind} (ha : a.toNat % 4 = 0)
    (hvalid : s.launch.addrOk a kind = true) : s.accessible a kind = true := by
  rw [State.accessible, (aligned_iff a).2 ha, hvalid, Bool.and_self]

/-- Settles O24: an aligned and valid address is accessible, where lw is one register write; any other is not. -/
theorem lwLoadsTheWordOrRaisesAddressError : Obligations.LwLoadsTheWordOrRaisesAddressError := by
  intro s rt rs imm16 ea
  refine ⟨effectiveAddress_eq_ofInt .., fun ha hvalid => ?_, fun hbad => ?_⟩
  · have hacc : s.accessible ea .load = true := accessible_of_aligned_of_addrOk ha hvalid
    exact ⟨_, execLw_of_accessible hacc rt, wroteReg_writeReg_advance .., onlyRegsAndPc_writeReg_advance ..⟩
  · exact execLw_of_not_accessible ((accessible_eq_false_iff s ea .load).2 hbad) rt

/-- Settles O25: at an accessible address sw is one word write, which reads back and keeps every byte outside the word;
any other address is not accessible. -/
theorem swStoresTheWordOrRaisesAddressError : Obligations.SwStoresTheWordOrRaisesAddressError := by
  intro s rt rs imm16 hm ea
  refine ⟨fun ha hvalid => ?_, fun hbad => ?_⟩
  · have hacc : s.accessible ea .store = true := accessible_of_aligned_of_addrOk ha hvalid
    have hexec := execSw_of_accessible hacc rt
    have hstored := readWord_writeWord_same hm s.launch.byteOrder (aligned_top (aligned_of_accessible hacc))
      (s.readReg rt)
    exact ⟨_, hexec, hstored, memKeptOutside_of_execSw hm hexec, fun _ _ => rfl, rfl, ⟨rfl, rfl⟩, rfl, rfl⟩
  · exact execSw_of_not_accessible ((accessible_eq_false_iff s ea .store).2 hbad) rt

end Sys2Proof.Machine
end

section
/-! PROOFS of the statements about the extended instructions that write one register: the clamped index, the register
written and the line that may follow, and the values written in exact arithmetic. -/

namespace Sys2Proof.Machine

/-! ## Clamped indices -/

/-- Clamping into a range that is not empty is the nearest number of the range (R150). -/
theorem clamp_eq_min_max (v : Int) {lo hi : Int} (h : lo ≤ hi) : clamp v lo hi = min hi (max lo v) := by
  unfold clamp
  split
  · omega
  · split <;> omega

theorem tier_val (v : Int) : ((tier v).val : Int) = min 4 (max 0 v) := by
  have hclamp := clamp_eq_min_max v (lo := 0) (hi := 4) (by decide)
  simp only [tier, hclamp]
  omega

theorem level_val (v : Int) : ((level v).val : Int) = min 3 (max 0 v) := by
  have hclamp := clamp_eq_min_max v (lo := 0) (hi := 3) (by decide)
  simp only [level, hclamp]
  omega

/-- An index from the top of the range upwards is the last entry of a table of 5 (R150). -/
theorem tier_eq_of_le {v w : Int} (hv : 4 ≤ v) (hw : 4 ≤ w) : tier v = tier w := by
  apply Fin.ext
  have hv' := tier_val v
  have hw' := tier_val w
  omega

/-- An index from the top of the range upwards is the last entry of a table of 4 (R150). -/
theorem level_eq_of_le {v w : Int} (hv : 3 ≤ v) (hw : 3 ≤ w) : level v = level w := by
  apply Fin.ext
  have hv' := level_val v
  have hw' := level_val w
  omega

theorem immIndex_eq (isSigned : Bool) (imm16 : BitVec 16) :
    immIndex isSigned imm16 = if isSigned then imm16.toInt else (imm16.toNat : Int) := by
  rw [immIndex, toInt_sext32]

/-! ## The immediate only counts through the clamped index -/

section
variable {s : State} {op0 op1 : RegNum} {imm16 imm16' : BitVec 16}

theorem execExtract_congr (h : tier (s.index s.launch.roles.extractIndex op0 op1 imm16) =
      tier (s.index s.launch.roles.extractIndex op0 op1 imm16')) :
    execExtract op0 op1 imm16 s = execExtract op0 op1 imm16' s := by
  have hdrawn : tier (s.afterDraw.index s.launch.roles.extractIndex op0 op1 imm16) =
      tier (s.afterDraw.index s.launch.roles.extractIndex op0 op1 imm16') := h
  simp only [execExtract, extractWith, afterDraw_launch, hdrawn]

theorem execSuppress_congr (h : tier (s.index s.launch.roles.suppressIndex op0 op1 imm16) =
      tier (s.index s.launch.roles.suppressIndex op0 op1 imm16')) :
    execSuppress op0 op1 imm16 s = execSuppress op0 op1 imm16' s := by
  simp only [execSuppress, h]

theorem execEgo_congr (h : tier (s.index s.launch.roles.egoIndex op0 op1 imm16) =
      tier (s.index s.launch.roles.egoIndex op0 op1 imm16')) :
    execEgo op0 op1 imm16 s = execEgo op0 op1 imm16' s := by
  simp only [execEgo, h]

theorem execOrdeal_congr (h : level (s.index s.launch.roles.ordealIndex op0 op1 imm16) =
      level (s.index s.launch.roles.ordealIndex op0 op1 imm16')) :
    execOrdeal op0 op1 imm16 s = execOrdeal op0 op1 imm16' s := by
  have hdrawn : level (s.afterDraw.index s.launch.roles.ordealIndex op0 op1 imm16) =
      level (s.afterDraw.index s.launch.roles.ordealIndex op0 op1 imm16') := h
  simp only [execOrdeal, ordealWith, afterDraw_launch, hdrawn]

end

/-- Settles O28: clamping is `min` and `max`, and under the default roles the immediate counts only through its clamped
value, which is the same for all immediates from the top of the range upwards. -/
theorem indicesAreClamped : Obligations.IndicesAreClamped := by
  refine ⟨fun v lo hi => clamp_eq_min_max v, fun v => ⟨tier_val v, level_val v⟩,
    fun s _ _ => immIndex_eq s.launch.idxSigned, ?_⟩
  intro s op0 op1 imm16 hunsigned hroles himm
  have hindex (k : BitVec 16) : s.index .imm op0 op1 k = (k.toNat : Int) := by
    simp [State.index, immIndex_eq, hunsigned]
  have htier : tier (s.index .imm op0 op1 imm16) = tier (s.index .imm op0 op1 4) := by
    rw [hindex, hindex]
    exact tier_eq_of_le (by omega) (by decide)
  have hlevel : level (s.index .imm op0 op1 imm16) = level (s.index .imm op0 op1 3) := by
    rw [hindex, hindex]
    exact level_eq_of_le (by omega) (by decide)
  exact ⟨execExtract_congr (by rwa [hroles]), execSuppress_congr (by rwa [hroles]),
    execEgo_congr (by rwa [hroles]), execOrdeal_congr (by rwa [hroles])⟩

/-! ## One register written, then a line -/

theorem wroteReg_emit_advance (s : State) (r : RegNum) (v : Word) (e : EmitEvent) :
    wroteReg r v s ((s.writeReg r v).emit e).advance :=
  wroteReg_writeReg_advance s r v

theorem onlyRegsPcAndLine_emit_advance (s : State) (r : RegNum) (v : Word) (e : EmitEvent) :
    onlyRegsPcAndLine e s ((s.writeReg r v).emit e).advance := by
  refine ⟨?_, fun a => ?_, ⟨?_, ?_⟩, ?_, ?_⟩ <;> simp

theorem wroteReg_emitIf_advance (s : State) (r : RegNum) (v : Word) (writes : Bool) (m : Mnemonic)
    (args : List Word) : wroteReg r v s ((s.writeReg r v).emitIf writes m args).advance := by
  cases writes with
  | false => exact wroteReg_writeReg_advance s r v
  | true => exact wroteReg_emit_advance s r v _

/-- The lines after an open line (R152): one more if the machine writes it. -/
theorem openLine_emitIf (s : State) (writes : Bool) (m : Mnemonic) (args : List Word) :
    if writes then ∃ args', (s.emitIf writes m args).emitted = s.emitted ++ [.free m args' s.emitted.length]
      else (s.emitIf writes m args).emitted = s.emitted := by
  cases writes with
  | false => rfl
  | true => exact ⟨args, rfl⟩

theorem onlyRegsPcAndOpenLine_emitIf_advance (s : State) (r : RegNum) (v : Word) (writes : Bool) (m : Mnemonic)
    (args : List Word) : onlyRegsPcAndOpenLine writes m s ((s.writeReg r v).emitIf writes m args).advance := by
  have hline := openLine_emitIf (s.writeReg r v) writes m args
  rw [writeReg_emitted] at hline
  exact ⟨by simp, fun a => by simp, ⟨by simp, by simp⟩, hline⟩

/-! ## Wrapping sums in exact arithmetic -/

/-- Adding an integer to a register wraps the exact sum (R154). -/
theorem ofInt_toInt_add (a : Word) (n : Int) : BitVec.ofInt 32 (a.toInt + n) = a + BitVec.ofInt 32 n := by
  rw [BitVec.ofInt_add, BitVec.ofInt_toInt]

/-- Subtracting an integer from a register wraps the exact difference (R154). -/
theorem ofInt_toInt_sub (a : Word) (n : Int) : BitVec.ofInt 32 (a.toInt - n) = a - BitVec.ofInt 32 n := by
  rw [Int.sub_eq_add_neg, ofInt_toInt_add, BitVec.ofInt_neg, BitVec.sub_eq_add_neg]

/-! ## The instructions -/

/-- Settles O29: the draw is the random source's, the gain the table's. The frame of a register write does not look at
the count of draws, so it holds from the state before the draw. -/
theorem extractAddsTheFlooredGain : Obligations.ExtractAddsTheFlooredGain := by
  intro s op0 op1 imm16 mult
  refine ⟨s.drawn 10, s.launch.extractGain _ (s.drawn 10), _, rfl, fun x hx => extractGain_floor hx _,
    wroteReg_emitIf_advance s.afterDraw .., ?_, onlyRegsPcAndOpenLine_emitIf_advance s.afterDraw ..⟩
  simp [extractWith]

/-- What the four work instructions share (R156). -/
theorem work_adds_and_emits (m : Mnemonic) (role : WorkRole) (op0 op1 : RegNum) (imm16 : BitVec 16) (s : State) :
    wroteReg (slotReg role.dest op0 op1)
        (BitVec.ofInt 32 ((s.readReg (slotReg role.src op0 op1)).toInt + imm16.toInt)) s
        (work m role op0 op1 imm16 s) ∧
      onlyRegsPcAndLine (.stated m [BitVec.ofNat 32 (slotReg role.dest op0 op1).val, BitVec.ofInt 32 imm16.toInt]) s
        (work m role op0 op1 imm16 s) := by
  rw [ofInt_toInt_add]
  exact ⟨wroteReg_emit_advance .., onlyRegsPcAndLine_emit_advance ..⟩

/-- Settles O30: the four differ in the name and the role only. -/
theorem workInstructionsAddAndEmitOneLine : Obligations.WorkInstructionsAddAndEmitOneLine := by
  intro s op0 op1 imm16 done
  exact ⟨⟨_, rfl, work_adds_and_emits ..⟩, ⟨_, rfl, work_adds_and_emits ..⟩, ⟨_, rfl, work_adds_and_emits ..⟩,
    ⟨_, rfl, work_adds_and_emits ..⟩⟩

/-- Settles O31: the verdict is the table's, which the exact products fix. -/
theorem suppressWritesTheVerdictIntoRegisterTwo : Obligations.SuppressWritesTheVerdictIntoRegisterTwo := by
  intro s op0 op1 imm16 mult agent abno
  refine ⟨_, s.launch.suppressWins _ _ _, rfl, wroteReg_emitIf_advance .., fun x product hx hproduct =>
    suppressWins_iff hx hproduct, ?_, onlyRegsPcAndOpenLine_emitIf_advance ..⟩
  simp

/-- Settles O32: the register is the band's at the value drawn. -/
theorem ordealSubtractsSeverityFromABandRegister : Obligations.OrdealSubtractsSeverityFromABandRegister := by
  intro s op0 op1 imm16
  have hband : 8 ≤ (bandReg (s.drawn 8)).val ∧ (bandReg (s.drawn 8)).val ≤ 15 := by
    simp only [bandReg]
    omega
  refine ⟨_, bandReg (s.drawn 8), rfl, hband.1, hband.2, ?_, ?_,
    onlyRegsPcAndOpenLine_emitIf_advance s.afterDraw ..⟩
  · rw [ofInt_toInt_sub]
    exact wroteReg_emitIf_advance s.afterDraw ..
  · simp [ordealWith]

/-- Settles O33: the destination is also the source. -/
theorem egoAddsTheBonus : Obligations.EgoAddsTheBonus := by
  intro s op0 op1 imm16
  rw [ofInt_toInt_add]
  refine ⟨_, rfl, wroteReg_emitIf_advance .., ?_, onlyRegsPcAndOpenLine_emitIf_advance ..⟩
  simp

/-- Settles O34: panic is one register write and one line. -/
theorem panicZeroesItsTarget : Obligations.PanicZeroesItsTarget := by
  intro s op0 op1 imm16
  exact ⟨_, rfl, wroteReg_emit_advance .., onlyRegsPcAndLine_emit_advance ..⟩

end Sys2Proof.Machine
end

section
/-! PROOFS of the statements about meltdown, and about the draws and lines of every instruction. -/

namespace Sys2Proof.Machine

/-! ## The penalty on the band -/

/-- The penalty where the exact difference is a 32-bit number (R164). -/
theorem meltPenalty_of_fits32 {v : Word} (h : fits32 (v.toInt - 10)) :
    meltPenalty v = BitVec.ofInt 32 (max 0 (v.toInt - 10)) :=
  if_neg (Int.not_lt.2 h.1)

/-- The next count where the exact sum is a 32-bit number (R164). -/
theorem counterNext_of_fits32 {c : Word} (h : fits32 (c.toInt + 1)) (ceiling : Word) :
    counterNext ceiling c = BitVec.ofInt 32 (min ceiling.toInt (c.toInt + 1)) :=
  if_neg (Int.not_le.2 h.2)

/-- A pass over registers that updates each by its own value leaves a register outside the list alone. -/
theorem readReg_foldl_writeReg_of_notMem (f : Word → Word) {l : List RegNum} {r : RegNum} (hr : r ∉ l) (s : State) :
    (l.foldl (fun t q => t.writeReg q (f (t.readReg q))) s).readReg r = s.readReg r :=
  List.foldlRecOn (motive := fun t : State => t.readReg r = s.readReg r) l _ rfl fun t ht q hq => by
    rw [readReg_writeReg_ne t _ (ne_of_mem_of_not_mem hq hr).symm, ht]

/-- A pass over registers that updates each by its own value updates a register listed once exactly once. -/
theorem readReg_foldl_writeReg_of_mem (f : Word → Word) {l : List RegNum} (hl : l.Nodup) {r : RegNum} (hr : r ∈ l)
    (hr0 : r ≠ 0) (s : State) :
    (l.foldl (fun t q => t.writeReg q (f (t.readReg q))) s).readReg r = f (s.readReg r) := by
  induction l generalizing s with
  | nil => cases hr
  | cons q rest ih =>
    obtain ⟨hq, hrest⟩ := List.nodup_cons.1 hl
    rw [List.foldl_cons]
    rcases List.mem_cons.1 hr with rfl | hmem
    · rw [readReg_foldl_writeReg_of_notMem f hq, readReg_writeReg_same, if_neg hr0]
    · rw [ih hrest hmem, readReg_writeReg_ne s _ (ne_of_mem_of_not_mem hmem hq)]

theorem mem_bandRegs_iff (r : RegNum) : r ∈ bandRegs ↔ 8 ≤ r.val ∧ r.val ≤ 15 := by
  revert r
  decide

/-- Step (a) of meltdown updates every register of the band once (R164). -/
theorem readReg_penaliseBand_of_mem (s : State) {r : RegNum} (hr : r ∈ bandRegs) :
    (penaliseBand s).readReg r = meltPenalty (s.readReg r) :=
  readReg_foldl_writeReg_of_mem meltPenalty (by decide) hr (ne_of_mem_of_not_mem hr (by decide)) s

/-! ## The two steps of meltdown, field by field -/

section
variable (s : State)

@[simp] theorem penaliseBand_drawCount : (penaliseBand s).drawCount = s.drawCount := by simp [penaliseBand, bandRegs]
@[simp] theorem penaliseBand_emitted : (penaliseBand s).emitted = s.emitted := by simp [penaliseBand, bandRegs]
@[simp] theorem penaliseBand_detector : (penaliseBand s).detector = s.detector := by simp [penaliseBand, bandRegs]
@[simp] theorem penaliseBand_launch : (penaliseBand s).launch = s.launch := by simp [penaliseBand, bandRegs]

/-- Step (b) of meltdown changes memory only (R164). -/
theorem bumpCounter_eq_with_mem : ∃ m, bumpCounter s = { s with mem := m } := by
  rcases bumpCounter_cases s with ⟨-, e⟩ | ⟨-, e⟩
  · exact ⟨s.mem, e⟩
  · exact ⟨_, e⟩

@[simp] theorem bumpCounter_readReg (r : RegNum) : (bumpCounter s).readReg r = s.readReg r := by
  obtain ⟨m, e⟩ := bumpCounter_eq_with_mem s; rw [e]; rfl
@[simp] theorem bumpCounter_drawCount : (bumpCounter s).drawCount = s.drawCount := by
  obtain ⟨m, e⟩ := bumpCounter_eq_with_mem s; rw [e]
@[simp] theorem bumpCounter_emitted : (bumpCounter s).emitted = s.emitted := by
  obtain ⟨m, e⟩ := bumpCounter_eq_with_mem s; rw [e]
@[simp] theorem bumpCounter_detector : (bumpCounter s).detector = s.detector := by
  obtain ⟨m, e⟩ := bumpCounter_eq_with_mem s; rw [e]
@[simp] theorem bumpCounter_launch : (bumpCounter s).launch = s.launch := by
  obtain ⟨m, e⟩ := bumpCounter_eq_with_mem s; rw [e]

end

/-! ## The counter -/

/-- The counter's word takes part in both transfers (R43, R44, R164). -/
theorem counter_accessible_iff (s : State) (a : Word) :
    (s.accessible a .load && s.accessible a .store) = true ↔
      a.toNat % 4 = 0 ∧ s.launch.addrOk a .load = true ∧ s.launch.addrOk a .store = true := by
  simp only [State.accessible, Bool.and_eq_true, aligned_iff]
  tauto

/-- Step (b) of meltdown where both accesses succeed: the counter's word is the next count (R164). -/
theorem readWord_bumpCounter {s : State} (hm : s.mem.wf = true)
    (h : (s.accessible (counterAddress s) .load && s.accessible (counterAddress s) .store) = true) :
    (bumpCounter s).mem.readWord s.launch.byteOrder (counterAddress s).toNat =
      counterNext s.launch.counterCeiling (s.mem.readWord s.launch.byteOrder (counterAddress s).toNat) := by
  rcases bumpCounter_cases s with ⟨hacc, -⟩ | ⟨hacc, e⟩
  · rw [h] at hacc; cases hacc
  · rw [e]
    exact readWord_writeWord_same hm _ (aligned_top (aligned_of_accessible (Bool.and_eq_true_iff.1 hacc).1)) _

/-- Step (b) of meltdown where an access fails: the failure is swallowed (R164, R191). -/
theorem bumpCounter_eq_self {s : State}
    (h : ¬ (s.accessible (counterAddress s) .load && s.accessible (counterAddress s) .store) = true) :
    bumpCounter s = s := by
  rcases bumpCounter_cases s with ⟨-, e⟩ | ⟨hacc, -⟩
  · exact e
  · exact absurd hacc h

/-- The counter's word after both steps of meltdown: step (a) moves neither the counter nor what its accesses depend
on (R164). -/
theorem readWord_bumpCounter_penaliseBand {s : State} (hm : s.mem.wf = true)
    (h : (s.accessible (counterAddress s) .load && s.accessible (counterAddress s) .store) = true) :
    (bumpCounter (penaliseBand s)).mem.readWord s.launch.byteOrder (counterAddress s).toNat =
      counterNext s.launch.counterCeiling (s.mem.readWord s.launch.byteOrder (counterAddress s).toNat) := by
  have hbump := readWord_bumpCounter (s := penaliseBand s) (by simpa using hm) (by simpa [State.accessible] using h)
  simpa using hbump

/-- A counter that cannot be read and written is left alone, also after the penalty on the band (R164, R191). -/
theorem bumpCounter_penaliseBand_eq_self {s : State}
    (h : ¬ (s.accessible (counterAddress s) .load && s.accessible (counterAddress s) .store) = true) :
    bumpCounter (penaliseBand s) = penaliseBand s :=
  bumpCounter_eq_self (by simpa [State.accessible] using h)

/-- Settles O35: step (a) updates the band and leaves the counter's address and word alone, step (b) changes the
counter's word or nothing. -/
theorem meltdownPenalisesTheBandAndCounts : Obligations.MeltdownPenalisesTheBandAndCounts := by
  intro s op0 op1 imm16 hm a c
  have hacc := counter_accessible_iff s (counterAddress s)
  refine ⟨_, rfl, fun r hlo hhi hfits => ?_, fun r hr => ?_,
    fun hok => ⟨memKeptOutside_of_execMeltdown hm rfl, fun hfits => ?_⟩, fun hbad b => ?_,
    by simp, by simp, ⟨by simp, by simp⟩, ?_⟩
  · have hband := readReg_penaliseBand_of_mem s ((mem_bandRegs_iff r).2 ⟨hlo, hhi⟩)
    rw [meltPenalty_of_fits32 hfits] at hband
    simpa using hband
  · have hout : r ∉ bandRegs := fun h => by have := (mem_bandRegs_iff r).1 h; omega
    simpa using readReg_penaliseBand_of_notMem s hout
  · have hword := readWord_bumpCounter_penaliseBand hm (hacc.2 hok)
    simpa [a, c, counterAddress, basePtr] using hword.trans (counterNext_of_fits32 hfits _)
  · rw [bumpCounter_penaliseBand_eq_self fun h => hbad (hacc.1 h)]
    simp
  · have hline := openLine_emitIf (bumpCounter (penaliseBand s)) s.launch.emits.meltdown .meltdown
    simpa using hline _

/-! ## Draws and lines -/

theorem quiet_of_aluInto {op : AluOp} {rd : RegNum} {a b : Word} {s t : State}
    (h : aluInto op rd a b s = .next t) : quiet s t := by
  rcases aluInto_cases op rd a b s with ⟨-, e⟩ | ⟨-, e⟩
  · rw [e] at h; cases h
  · rw [e] at h; cases h; exact ⟨by simp, by simp⟩

theorem quiet_of_execLw {rt rs : RegNum} {imm16 : BitVec 16} {s t : State}
    (h : execLw rt rs imm16 s = .next t) : quiet s t := by
  cases hacc : s.accessible (effectiveAddress (s.readReg rs) imm16) .load with
  | true => rw [execLw_of_accessible hacc] at h; cases h; exact ⟨by simp, by simp⟩
  | false => rw [execLw_of_not_accessible hacc] at h; cases h

theorem quiet_of_execSw {rt rs : RegNum} {imm16 : BitVec 16} {s t : State}
    (h : execSw rt rs imm16 s = .next t) : quiet s t := by
  cases hacc : s.accessible (effectiveAddress (s.readReg rs) imm16) .store with
  | true => rw [execSw_of_accessible hacc] at h; cases h; exact ⟨rfl, rfl⟩
  | false => rw [execSw_of_not_accessible hacc] at h; cases h

/-- The ten extended instructions (R154). -/
def extendedMnemonics : List Mnemonic :=
  [.extract, .winst, .winsight, .wattach, .wrepress, .suppress, .ordeal, .ego, .panic, .meltdown]

/-- The base instructions take no draw and write no line. -/
theorem quiet_of_exec {i : Instr} {s t : State} (hbase : i.mnemonic ∉ extendedMnemonics)
    (h : exec i s = .next t) : quiet s t := by
  cases i with
  | add | sub | mul | and | or | slt | addi =>
    simp only [exec, execAdd, execSub, execMul, execAnd, execOr, execSlt, execAddi] at h
    exact quiet_of_aluInto h
  | lw => exact quiet_of_execLw h
  | sw => exact quiet_of_execSw h
  | j | beq | bne => cases h; exact ⟨rfl, rfl⟩
  | jal => cases h; exact ⟨by simp, by simp⟩
  | _ => exact absurd (by simp [Instr.mnemonic, extendedMnemonics]) hbase

/-- An open line adds at most one line and keeps those before (R152). -/
theorem emitted_emitIf_advance {s u : State} (hu : u.emitted = s.emitted) (writes : Bool) (m : Mnemonic)
    (args : List Word) :
    ∃ lines, (u.emitIf writes m args).advance.emitted = s.emitted ++ lines ∧ lines.length ≤ 1 := by
  rw [← hu]
  cases writes with
  | false => exact ⟨[], (List.append_nil _).symm, Nat.zero_le 1⟩
  | true => exact ⟨_, rfl, Nat.le_refl 1⟩

/-- Only extract and ordeal draw, once each (R151, R155, R161). -/
theorem drawCount_of_exec {i : Instr} {s t : State} (h : exec i s = .next t) :
    t.drawCount = s.drawCount + (if i.mnemonic ∈ [Mnemonic.extract, .ordeal] then 1 else 0) := by
  cases i with
  | extract | ordeal => cases h; simp [extractWith, ordealWith, Instr.mnemonic]
  | winst | winsight | wattach | wrepress | suppress | ego | panic | meltdown =>
    cases h; simp [work, Instr.mnemonic]
  | _ => exact (quiet_of_exec (by simp [Instr.mnemonic, extendedMnemonics]) h).1

/-- The five instructions whose line the spec gives write exactly one (R156 to R159, R163). -/
theorem emitted_of_exec_statedLine {i : Instr} {s t : State}
    (hi : i.mnemonic ∈ [Mnemonic.winst, .winsight, .wattach, .wrepress, .panic]) (h : exec i s = .next t) :
    ∃ e, t.emitted = s.emitted ++ [e] := by
  cases i with
  | winst | winsight | wattach | wrepress | panic => cases h; simp [work]
  | _ => simp [Instr.mnemonic] at hi

/-- The five instructions whose line the spec leaves open write at most one (R152). -/
theorem emitted_of_exec_openLine {i : Instr} {s t : State}
    (hi : i.mnemonic ∈ [Mnemonic.extract, .suppress, .ordeal, .ego, .meltdown]) (h : exec i s = .next t) :
    ∃ lines, t.emitted = s.emitted ++ lines ∧ lines.length ≤ 1 := by
  cases i with
  | extract | suppress | ordeal | ego | meltdown => cases h; exact emitted_emitIf_advance (by simp) ..
  | _ => simp [Instr.mnemonic] at hi

/-- Settles O36, by the three kinds of instruction: one stated line, an open line, no line. -/
theorem drawsAndLinesAreCounted : Obligations.DrawsAndLinesAreCounted := by
  intro i s t h
  refine ⟨drawCount_of_exec h, ?_⟩
  cases i with
  | winst | winsight | wattach | wrepress | panic =>
    obtain ⟨e, hline⟩ := emitted_of_exec_statedLine (by simp [Instr.mnemonic]) h
    exact ⟨[e], hline, Nat.le_refl 1, fun _ => rfl, fun hbase => absurd (by simp [Instr.mnemonic]) hbase⟩
  | extract | suppress | ordeal | ego | meltdown =>
    obtain ⟨lines, hlines, hlen⟩ := emitted_of_exec_openLine (by simp [Instr.mnemonic]) h
    exact ⟨lines, hlines, hlen, fun hstated => by simp [Instr.mnemonic] at hstated,
      fun hbase => absurd (by simp [Instr.mnemonic]) hbase⟩
  | _ =>
    obtain ⟨-, hlines⟩ := quiet_of_exec (by simp [Instr.mnemonic, extendedMnemonics]) h
    exact ⟨[], by simpa using hlines, Nat.zero_le 1, fun hstated => by simp [Instr.mnemonic] at hstated,
      fun _ => rfl⟩

end Sys2Proof.Machine
end

section
/-! PROOFS of the statements about faults: what an instruction can end in, and what a step can end in. -/

namespace Sys2Proof.Machine

/-! ## What an instruction can end in -/

/-- The faults R180 and R185 list for the row `m`, with the report of `site`: ArithmeticOverflow for add, sub and addi,
AddressError for lw and sw, none for any other row. -/
def ListedFault (m : Mnemonic) (site : FaultSite) (f : Fault) : Prop :=
  (m ∈ [Mnemonic.add, .sub, .addi] ∧ f = .arithmeticOverflow site) ∨
    (m = .lw ∧ ∃ a, f = .addressError site a .load) ∨ (m = .sw ∧ ∃ a, f = .addressError site a .store)

section
variable {m : Mnemonic} {site : FaultSite} {f : Fault} (h : ListedFault m site f)
include h

/-- Driving the detector changes the detector of the site and nothing else (R208, R209). -/
theorem ListedFault.withDetector (d : Detector) :
    ListedFault m { site with detector := d } (f.withDetector d) := by
  rcases h with ⟨hm, rfl⟩ | ⟨hm, a, rfl⟩ | ⟨hm, a, rfl⟩
  · exact .inl ⟨hm, rfl⟩
  · exact .inr (.inl ⟨hm, a, rfl⟩)
  · exact .inr (.inr ⟨hm, a, rfl⟩)

/-- A listed fault is a failure, not the lack of a step (R180). -/
theorem ListedFault.exists_kind : ∃ k, f.kind = some k := by
  rcases h with ⟨-, rfl⟩ | ⟨-, a, rfl⟩ | ⟨-, a, rfl⟩ <;> exact ⟨_, rfl⟩

end

/-- The execution unit completes or raises ArithmeticOverflow (R100). -/
theorem aluInto_next_or_overflow (op : AluOp) (rd : RegNum) (a b : Word) (s : State) :
    (∃ t, aluInto op rd a b s = .next t) ∨ aluInto op rd a b s = .fault (.arithmeticOverflow s.site) := by
  rcases aluInto_cases op rd a b s with ⟨-, e⟩ | ⟨-, e⟩
  · exact .inr e
  · exact .inl ⟨_, e⟩

/-- Everything `exec` can end in: a next state, or a fault listed for the instruction's row (R185). -/
theorem exec_next_or_listedFault (i : Instr) (s : State) :
    (∃ t, exec i s = .next t) ∨ ∃ f, exec i s = .fault f ∧ ListedFault i.mnemonic s.site f := by
  cases i with
  | add | sub | addi =>
    refine (aluInto_next_or_overflow _ _ _ _ s).imp id fun e => ⟨_, e, .inl ⟨?_, rfl⟩⟩
    simp [Instr.mnemonic]
  | mul rd | and rd | or rd | slt rd =>
    simp only [exec, execMul, execAnd, execOr, execSlt]
    exact .inl ⟨_, aluInto_of_not_ovf rfl rd s⟩
  | lw rt rs imm16 =>
    cases hacc : s.accessible (effectiveAddress (s.readReg rs) imm16) .load with
    | true => exact .inl ⟨_, execLw_of_accessible hacc rt⟩
    | false => exact .inr ⟨_, execLw_of_not_accessible hacc rt, .inr (.inl ⟨rfl, _, rfl⟩)⟩
  | sw rt rs imm16 =>
    cases hacc : s.accessible (effectiveAddress (s.readReg rs) imm16) .store with
    | true => exact .inl ⟨_, execSw_of_accessible hacc rt⟩
    | false => exact .inr ⟨_, execSw_of_not_accessible hacc rt, .inr (.inr ⟨rfl, _, rfl⟩)⟩
  | j | jal | beq | bne | extract | winst | winsight | wattach | wrepress | suppress | ordeal | ego | panic
  | meltdown => exact .inl ⟨_, rfl⟩

theorem exec_ne_refused (i : Instr) (s : State) (r : Refusal) : exec i s ≠ .refused r := by
  rcases exec_next_or_listedFault i s with ⟨t, e⟩ | ⟨f, e, -⟩ <;> simp [e]

theorem listedFault_of_exec {i : Instr} {s : State} {f : Fault} (h : exec i s = .fault f) :
    ListedFault i.mnemonic s.site f := by
  rcases exec_next_or_listedFault i s with ⟨t, e⟩ | ⟨f', e, hf⟩
  · rw [e] at h; cases h
  · rw [e] at h; cases h; exact hf

/-! ## What a step can end in -/

/-- A word is illegal exactly where it matches no row (R72, R76, R183). -/
theorem decode_eq_illegal_iff (order : List Mnemonic) (w : Word) :
    decode order w = .illegal w ↔ ∀ m ∈ order, w &&& m.mask ≠ m.pattern := by
  rw [← firstRegisteredMatchWins.2.1 order w]
  unfold decode decodeRecord
  cases dispatch order w <;> simp

/-- The step of an illegal word, with the report of R186. -/
theorem step_of_no_match {s : State} {w : Word} (hfetch : s.fetch = some w)
    (h : ∀ m ∈ s.launch.catalogOrder, w &&& m.mask ≠ m.pattern) :
    ∃ d, step s = .fault (.illegalInstruction { pc := s.pc, word := some w, detector := d } w) :=
  ⟨_, ((stepRunsTheDecodedInstruction s w hfetch).2 w ((decode_eq_illegal_iff _ w).2 h)).2⟩

/-- Settles O37, by what `exec` can end in and by the step of a word that matches no row. -/
theorem onlyTheListedInstructionsFault : Obligations.OnlyTheListedInstructionsFault :=
  ⟨fun i s => ⟨exec_ne_refused i s, fun _ h => listedFault_of_exec h⟩, fun _ _ => step_of_no_match⟩

/-- The outcomes a step from `s` can have (R180, R186, R204). -/
inductive StepOutcome (s : State) : Host.Outcome State Fault Refusal → Prop where
  | finished (h : Finished s) : StepOutcome s (.fault (.finished s.pc))
  | stuck (h : Stuck s) : StepOutcome s (.fault (.stuck s.pc))
  | next {w : Word} (hfetch : s.fetch = some w) (t : State) : StepOutcome s (.next t)
  | illegal {w : Word} (hfetch : s.fetch = some w) (h : ∀ m ∈ s.launch.catalogOrder, w &&& m.mask ≠ m.pattern)
      (d : Detector) :
      StepOutcome s (.fault (.illegalInstruction { pc := s.pc, word := some w, detector := d } w))
  | listed {w : Word} {i : Instr} {d : Detector} {f : Fault} (hfetch : s.fetch = some w)
      (hdecode : decode s.launch.catalogOrder w = .legal i)
      (h : ListedFault i.mnemonic { pc := s.pc, word := some w, detector := d } f) : StepOutcome s (.fault f)

/-- The outcomes where there is no word to run (R55, R204). -/
theorem stepOutcome_of_fetch_none {s : State} (hfetch : s.fetch = none) : StepOutcome s (step s) := by
  simp only [step, hfetch, noStep]
  split
  · next hpc => exact .finished ⟨hfetch, hpc⟩
  · next hpc => exact .stuck ⟨hfetch, hpc⟩

/-- The outcomes of a legal word are those of its instruction, with the detector driven (R120, R185, R209). -/
theorem stepOutcome_of_legal {s : State} {w : Word} {i : Instr} (hfetch : s.fetch = some w)
    (hdecode : decode s.launch.catalogOrder w = .legal i) : StepOutcome s (step s) := by
  rw [step_of_legal hfetch hdecode]
  rcases exec_next_or_listedFault i s with ⟨t, e⟩ | ⟨f, e, hf⟩
  · rw [e]; exact .next hfetch _
  · rw [e]; rw [State.site, hfetch] at hf; exact .listed hfetch hdecode (hf.withDetector _)

/-- Everything a step can end in. -/
theorem stepOutcome_step (s : State) : StepOutcome s (step s) := by
  cases hfetch : s.fetch with
  | none => exact stepOutcome_of_fetch_none hfetch
  | some w =>
    cases hdecode : decode s.launch.catalogOrder w with
    | legal i => exact stepOutcome_of_legal hfetch hdecode
    | illegal v =>
      obtain rfl := eq_of_decode_eq_illegal hdecode
      have hmatch := (decode_eq_illegal_iff _ v).1 hdecode
      obtain ⟨d, e⟩ := step_of_no_match hfetch hmatch
      rw [e]; exact .illegal hfetch hmatch d

/-- A failure is a failure of a word (R180, R204). -/
theorem fetch_ne_none_of_fails {s : State} (h : Fails s) : s.fetch ≠ none := by
  obtain ⟨f, k, e, hk⟩ := h
  have hout := stepOutcome_step s
  rw [e] at hout
  cases hout with
  | finished | stuck => cases hk
  | illegal hfetch | listed hfetch => simp [hfetch]

/-- Every step completes or fails, or there is no step: the run is finished or stuck (R204). -/
theorem next_or_fails_or_finished_or_stuck (s : State) :
    (∃ t, step s = .next t) ∨ Fails s ∨ Finished s ∨ Stuck s := by
  generalize e : step s = o
  have hout : StepOutcome s o := e ▸ stepOutcome_step s
  cases hout with
  | next _ t => exact .inl ⟨t, rfl⟩
  | illegal => exact .inr (.inl ⟨_, .illegalInstruction, e, rfl⟩)
  | listed _ _ hf =>
    obtain ⟨k, hk⟩ := hf.exists_kind
    exact .inr (.inl ⟨_, k, e, hk⟩)
  | finished h => exact .inr (.inr (.inl h))
  | stuck h => exact .inr (.inr (.inr h))

/-- Settles O11, from the outcomes of a step: a completed step and a failure have a word, a finished and a stuck run have
none and differ in the pc. -/
theorem stepHasOneOfTheListedOutcomes : Obligations.StepHasOneOfTheListedOutcomes := by
  intro s
  have hout := stepOutcome_step s
  have apart (hfetch : s.fetch ≠ none) : ¬ Finished s ∧ ¬ Stuck s := ⟨fun h => hfetch h.1, fun h => hfetch h.1⟩
  refine ⟨fun r e => ?_, fun f e => ?_, fun ⟨t, e⟩ => ?_, next_or_fails_or_finished_or_stuck s,
    fun h => apart (fetch_ne_none_of_fails h), fun ⟨hfin, hstuck⟩ => hstuck.2 hfin.2⟩
  · rw [e] at hout
    cases hout
  · rw [e] at hout
    cases hout with
    | finished h => exact .inl ⟨h, rfl⟩
    | stuck h => exact .inr (.inl ⟨h, rfl⟩)
    | illegal hfetch h d => exact .inr (.inr ⟨_, d, hfetch, .inl ⟨rfl, h⟩⟩)
    | listed hfetch hdecode h => exact .inr (.inr ⟨_, _, hfetch, .inr ⟨_, hdecode, h⟩⟩)
  · obtain ⟨w, i, u, hfetch, -⟩ := step_next_cases e
    refine ⟨fun ⟨f, _, e', _⟩ => ?_, apart (by simp [hfetch])⟩
    rw [e] at e'
    cases e'

end Sys2Proof.Machine
end

section
/-! PROOFS that the hazard detector is an observer: the machine with another detector does the same but for it. -/

namespace Sys2Proof.Machine

/-! ## The machine with another detector -/

/-- The machine `s` with the hazard detector `d`. -/
def State.withDetector (s : State) (d : Detector) : State := { s with detector := d }

/-- The outcome with the hazard detector it leaves as `d`. -/
def outcomeWithDetector (d : Detector) : Host.Outcome State Fault Refusal → Host.Outcome State Fault Refusal
  | .next t => .next (t.withDetector d)
  | .fault f => .fault (f.withDetector d)
  | .refused r => .refused r

/-- Machines that are the same but for the detector are one machine with two detectors. -/
theorem sameButDetector_iff (s s' : State) : sameButDetector s s' ↔ s' = s.withDetector s'.detector := Iff.rfl

/-- An outcome with another detector differs from it in nothing else. -/
theorem outcomesRelated_outcomeWithDetector (d : Detector) (o : Host.Outcome State Fault Refusal) :
    outcomesRelated sameButDetector sameFaultButDetector o (outcomeWithDetector d o) := by
  cases o with
  | next t => exact (sameButDetector_iff _ _).2 rfl
  | fault f => exact ⟨d, rfl⟩
  | refused r => rfl

@[simp] theorem outcomeWithDetector_outcomeWithDetector (d d' : Detector) (o : Host.Outcome State Fault Refusal) :
    outcomeWithDetector d' (outcomeWithDetector d o) = outcomeWithDetector d' o := by
  cases o with
  | next t => rfl
  | fault f => exact congrArg Host.Outcome.fault (withDetector_withDetector f d d')
  | refused r => rfl

/-- Driving the detector replaces the detector of the outcome (R208, R209). -/
theorem driveDetector_eq (w : Word) (v : Verdict) (s : State) (o : Host.Outcome State Fault Refusal) :
    driveDetector w v s o = outcomeWithDetector (s.detector.observe s.launch.roles (fieldsOf w) v) o := by
  cases o <;> rfl

/-- The step where there is no word to run (R204). -/
theorem step_of_fetch_none {s : State} (hfetch : s.fetch = none) : step s = noStep s := by
  simp only [step, hfetch]

/-! ## No operation looks at the detector -/

section
variable (s : State) (d : Detector)

theorem writeReg_withDetector (r : RegNum) (v : Word) :
    (s.withDetector d).writeReg r v = (s.writeReg r v).withDetector d := by
  unfold State.writeReg; split <;> rfl

theorem emitIf_withDetector (writes : Bool) (m : Mnemonic) (args : List Word) :
    (s.withDetector d).emitIf writes m args = (s.emitIf writes m args).withDetector d := by
  cases writes <;> rfl

theorem writeReg_emit_withDetector (r : RegNum) (v : Word) (e : EmitEvent) :
    (((s.withDetector d).writeReg r v).emit e).advance = ((s.writeReg r v).emit e).advance.withDetector d := by
  rw [writeReg_withDetector]; rfl

theorem writeReg_emitIf_withDetector (r : RegNum) (v : Word) (writes : Bool) (m : Mnemonic) (args : List Word) :
    (((s.withDetector d).writeReg r v).emitIf writes m args).advance =
      ((s.writeReg r v).emitIf writes m args).advance.withDetector d := by
  rw [writeReg_withDetector, emitIf_withDetector]; rfl

theorem penaliseBand_withDetector : penaliseBand (s.withDetector d) = (penaliseBand s).withDetector d :=
  List.foldl_hom (State.withDetector · d) fun t r => writeReg_withDetector t d r (meltPenalty (t.readReg r))

theorem bumpCounter_withDetector : bumpCounter (s.withDetector d) = (bumpCounter s).withDetector d := by
  rcases bumpCounter_cases s with ⟨hacc, e⟩ | ⟨hacc, e⟩ <;>
    rcases bumpCounter_cases (s.withDetector d) with ⟨hacc', e'⟩ | ⟨hacc', e'⟩
  · rw [e, e']
  · cases hacc.symm.trans hacc'
  · cases hacc.symm.trans hacc'
  · rw [e, e']; rfl

theorem aluInto_withDetector (op : AluOp) (rd : RegNum) (a b : Word) :
    aluInto op rd a b (s.withDetector d) = outcomeWithDetector d (aluInto op rd a b s) := by
  cases hovf : aluOvf op a b with
  | true => rw [aluInto_of_ovf hovf, aluInto_of_ovf hovf]; rfl
  | false => rw [aluInto_of_not_ovf hovf, aluInto_of_not_ovf hovf, writeReg_withDetector]; rfl

theorem execLw_withDetector (rt rs : RegNum) (imm16 : BitVec 16) :
    execLw rt rs imm16 (s.withDetector d) = outcomeWithDetector d (execLw rt rs imm16 s) := by
  cases hacc : s.accessible (effectiveAddress (s.readReg rs) imm16) .load with
  | true =>
    rw [execLw_of_accessible hacc, execLw_of_accessible (s := s.withDetector d) hacc, writeReg_withDetector]; rfl
  | false => rw [execLw_of_not_accessible hacc, execLw_of_not_accessible (s := s.withDetector d) hacc]; rfl

theorem execSw_withDetector (rt rs : RegNum) (imm16 : BitVec 16) :
    execSw rt rs imm16 (s.withDetector d) = outcomeWithDetector d (execSw rt rs imm16 s) := by
  cases hacc : s.accessible (effectiveAddress (s.readReg rs) imm16) .store with
  | true => rw [execSw_of_accessible hacc, execSw_of_accessible (s := s.withDetector d) hacc]; rfl
  | false => rw [execSw_of_not_accessible hacc, execSw_of_not_accessible (s := s.withDetector d) hacc]; rfl

/-- An instruction does the same whatever the detector (R210). -/
theorem exec_withDetector (i : Instr) : exec i (s.withDetector d) = outcomeWithDetector d (exec i s) := by
  cases i with
  | add | sub | mul | and | or | slt | addi =>
    simp only [exec, execAdd, execSub, execMul, execAnd, execOr, execSlt, execAddi]
    exact aluInto_withDetector s d _ _ _ _
  | lw => exact execLw_withDetector s d _ _ _
  | sw => exact execSw_withDetector s d _ _ _
  | j | beq | bne => rfl
  | jal => exact congrArg (Host.Outcome.next <| State.setPc · _) (writeReg_withDetector s d _ _)
  | winst | winsight | wattach | wrepress | panic =>
    exact congrArg Host.Outcome.next (writeReg_emit_withDetector s d _ _ _)
  | suppress | ego => exact congrArg Host.Outcome.next (writeReg_emitIf_withDetector s d _ _ _ _ _)
  | extract | ordeal => exact congrArg Host.Outcome.next (writeReg_emitIf_withDetector s.afterDraw d _ _ _ _ _)
  | meltdown =>
    simp only [exec, execMeltdown, penaliseBand_withDetector, bumpCounter_withDetector]
    exact congrArg (Host.Outcome.next <| State.advance ·) (emitIf_withDetector _ d _ _ _)

/-- Where there is no word to run, there is nothing to drive (R204, R209). -/
theorem noStep_withDetector : noStep (s.withDetector d) = outcomeWithDetector d (noStep s) := by
  unfold noStep
  rw [apply_ite (outcomeWithDetector d)]
  rfl

/-- A step does the same whatever the detector but for the detector it leaves (R210). -/
theorem step_withDetector : ∃ d', step (s.withDetector d) = outcomeWithDetector d' (step s) := by
  cases hfetch : s.fetch with
  | none =>
    rw [step_of_fetch_none hfetch, step_of_fetch_none (s := s.withDetector d) hfetch]
    exact ⟨d, noStep_withDetector s d⟩
  | some w =>
    cases hdecode : decode s.launch.catalogOrder w with
    | illegal v =>
      rw [step_of_illegal hfetch hdecode, step_of_illegal (s := s.withDetector d) hfetch hdecode]
      simp only [driveDetector_eq, outcomeWithDetector_outcomeWithDetector]
      exact ⟨_, rfl⟩
    | legal i =>
      rw [step_of_legal hfetch hdecode, step_of_legal (s := s.withDetector d) hfetch hdecode]
      simp only [driveDetector_eq, exec_withDetector, outcomeWithDetector_outcomeWithDetector]
      exact ⟨_, rfl⟩

end

/-- Settles O42: a step of the machine with another detector has the same outcome but for the detector it leaves, so the
relation is kept by every step and by every run. -/
theorem detectorChangesNothingElse : Obligations.DetectorChangesNothingElse := by
  intro n s s' h
  refine outcomesRelated_run (fun t t' ht => ?_) n h
  obtain ⟨d, e⟩ := step_withDetector t t'.detector
  rw [(sameButDetector_iff t t').1 ht, e]
  exact outcomesRelated_outcomeWithDetector d _

end Sys2Proof.Machine
end

section
/-! PROOFS of the statements about reset and about the end of a run: the addresses of a program and where it ends. -/

namespace Sys2Proof.Machine

/-! ## Reset -/

/-- A register other than 0 starts with its launch value (R34, R200). -/
theorem readReg_boot (p : Launch) (mem : Memory) {r : RegNum} (hr : r ≠ 0) :
    (State.boot p mem).readReg r = p.resetReg[r] := by
  have hr' : (0 : Nat) ≠ r.val := fun e => hr (Fin.ext e.symm)
  simp [State.readReg, State.boot, hr, Vector.getElem_set_ne, hr']

theorem resetPc_aligned_of_wellFormed {p : Launch} (h : p.wellFormed = true) : p.resetPc.toNat % 4 = 0 := by
  simp only [Launch.wellFormed, Bool.and_eq_true, decide_eq_true_eq] at h
  obtain ⟨⟨⟨⟨hpc, -⟩, -⟩, -⟩, -⟩ := h
  exact hpc

/-- Settles O46: `State.boot` puts each value, and its latch is the empty set. -/
theorem resetPutsTheLaunchValues : Obligations.ResetPutsTheLaunchValues := by
  intro p mem
  exact ⟨rfl, resetPc_aligned_of_wellFormed, rfl, fun _ => readReg_boot p mem, fun _ => rfl,
    fun _ => BitVec.getLsbD_zero, rfl⟩

/-! ## The addresses of a program -/

/-- A word of `IMem` stands in its list (R55). -/
theorem mem_of_imemAt_eq_some {im : List (Nat × Word)} {a : Nat} {w : Word} (h : imemAt im a = some w) :
    (a, w) ∈ im := by
  induction im with
  | nil => cases h
  | cons c rest ih =>
    unfold imemAt at h
    split at h
    · next hk => cases h; cases hk; exact List.mem_cons_self
    · exact List.mem_cons_of_mem _ (ih h)

/-- `IMem` is undefined exactly at the addresses its list does not name (R55). -/
theorem imemAt_eq_none_iff (im : List (Nat × Word)) (a : Nat) : imemAt im a = none ↔ a ∉ im.map Prod.fst := by
  induction im with
  | nil => simp [imemAt]
  | cons c rest ih =>
    unfold imemAt
    split
    · next hk => simp [hk]
    · next hk => simp [ih, Ne.symm hk]

section
variable {s : State} (hpc : s.launch.resetPc.toNat % 4 = 0) (h : programOk s.launch.resetPc s.launch.imem = true)
include h

/-- `END_PC` of a program inside the address space is the exact address after its last word (R204). -/
theorem endPc_toNat : s.launch.endPc.toNat = s.launch.resetPc.toNat + 4 * s.launch.imem.length := by
  simp only [programOk, Bool.and_eq_true, decide_eq_true_eq] at h
  simp only [Launch.endPc, BitVec.toNat_add, BitVec.toNat_mul, BitVec.toNat_ofNat,
    show (4 : Word).toNat = 4 from rfl]
  omega

include hpc

/-- There is a word to run exactly at the addresses from `RESET_PC` up to `END_PC` that are multiples of 4 (R204). -/
theorem fetch_ne_none_iff : s.fetch ≠ none ↔
    s.launch.resetPc.toNat ≤ s.pc.toNat ∧ s.pc.toNat < s.launch.endPc.toNat ∧ s.pc.toNat % 4 = 0 := by
  have haddresses : s.launch.imem.map Prod.fst =
      (List.range s.launch.imem.length).map (fun k => s.launch.resetPc.toNat + 4 * k) := by
    simp only [programOk, Bool.and_eq_true, beq_iff_eq] at h
    exact h.1
  rw [endPc_toNat h, State.fetch, ne_eq, imemAt_eq_none_iff, haddresses, not_not, List.mem_map]
  simp only [List.mem_range]
  constructor
  · rintro ⟨k, hk, e⟩
    omega
  · rintro ⟨hlo, hhi, haligned⟩
    exact ⟨(s.pc.toNat - s.launch.resetPc.toNat) / 4, by omega, by omega⟩

end

/-- Settles O12: the words of the program stand at the multiples of 4 from `RESET_PC` up to `END_PC`. -/
theorem runEndsAtEndPcOrIsStuckOutside : Obligations.RunEndsAtEndPcOrIsStuckOutside := by
  intro s hreset hprog
  have hword := fetch_ne_none_iff hreset hprog
  refine ⟨endPc_toNat hprog, fun hend => ?_, fun hend hout => ?_, fun hlo hhi haligned => ?_⟩
  · have hfetch : s.fetch = none := not_not.1 fun hne => (hword.1 hne).2.1.ne (congrArg BitVec.toNat hend)
    rw [step_of_fetch_none hfetch, noStep, if_pos hend]
  · have hfetch : s.fetch = none := not_not.1 fun hne => hout (hword.1 hne)
    rw [step_of_fetch_none hfetch, noStep, if_neg hend]
  · obtain ⟨w, hw⟩ := Option.ne_none_iff_exists'.1 (hword.2 ⟨hlo, hhi, haligned⟩)
    exact ⟨w, hw, mem_of_imemAt_eq_some hw⟩

end Sys2Proof.Machine
end

section
/-! PROOFS of the statements about the read and write sets: the table of R207, what the hazard detector reports of them
(R208, R209), and that the instructions keep to them. -/

namespace Sys2Proof.Machine

/-! ## Sets of registers -/

/-- A set holds the registers of its list other than 0 (R207, R208). -/
theorem inSet_regSet_iff (r : RegNum) (l : List RegNum) : inSet r (regSet l) = true ↔ r ≠ 0 ∧ r ∈ l := by
  induction l with
  | nil => simp [inSet, regSet]
  | cons q rest ih =>
    unfold regSet
    split
    · next hq =>
      rw [ih, hq, List.mem_cons]
      tauto
    · next hq =>
      have hbit : ((1 : RegSet) <<< q.val).getLsbD r.val = true ↔ r = q := by
        rw [show (1 : RegSet) <<< q.val = BitVec.twoPow 32 q.val from rfl, BitVec.getLsbD_twoPow]
        simp only [Bool.and_eq_true, decide_eq_true_eq, Fin.ext_iff]
        omega
      rw [inSet, BitVec.getLsbD_or, Bool.or_eq_true, hbit, ← inSet, ih, List.mem_cons]
      constructor
      · rintro (rfl | ⟨hr, hmem⟩)
        · exact ⟨hq, .inl rfl⟩
        · exact ⟨hr, .inr hmem⟩
      · rintro ⟨hr, hmem⟩
        exact hmem.imp id fun hmem => ⟨hr, hmem⟩

theorem setIs_regSet (l : List RegNum) : setIs (regSet l) l := (inSet_regSet_iff · l)

/-- Two sets meet exactly in a register that is in both (R209). -/
theorem and_ne_zero_iff (A B : RegSet) :
    ((A &&& B) != 0) = true ↔ ∃ r : RegNum, inSet r A = true ∧ inSet r B = true := by
  rw [bne_iff_ne, ne_eq, BitVec.eq_of_getLsbD_eq_iff]
  simp only [inSet, Fin.exists_iff, BitVec.ofNat_eq_ofNat, BitVec.getLsbD_and, BitVec.getLsbD_zero, not_forall,
    Bool.not_eq_false, Bool.and_eq_true]

@[simp] theorem inSet_zero (r : RegNum) : inSet r 0#32 = false := BitVec.getLsbD_zero

/-- Settles O38: each row's sets are the sets of the registers the table lists. -/
theorem readAndWriteSetsAreTheTable : Obligations.ReadAndWriteSetsAreTheTable := by
  intro a b c shamt imm16 target26 reads writes band
  have both {i : Instr} {l l' : List RegNum} (hr : readRegs defaultRoles i = l) (hw : writeRegs defaultRoles i = l') :
      reads i l ∧ writes i l' := by
    subst hr hw
    exact ⟨setIs_regSet _, setIs_regSet _⟩
  have hsw : setIs (regSet [b, a]) [a, b] := fun r =>
    (setIs_regSet [b, a] r).trans (and_congr_right fun _ => (List.Perm.swap a b []).mem_iff)
  refine ⟨?_, ?_, ⟨hsw, setIs_regSet _⟩, ?_, both rfl rfl, both rfl rfl, ?_, both rfl rfl, both rfl rfl, both rfl rfl,
    both rfl rfl, both rfl rfl, fun _ _ => ⟨setIs_regSet [], setIs_regSet []⟩, fun _ _ => ⟨rfl, rfl⟩⟩
  all_goals simp only [List.forall_mem_cons, List.not_mem_nil, false_imp_iff, implies_true, and_true]
  · exact ⟨both rfl rfl, both rfl rfl, both rfl rfl, both rfl rfl, both rfl rfl, both rfl rfl⟩
  · exact ⟨both rfl rfl, both rfl rfl⟩
  · exact ⟨both rfl rfl, both rfl rfl⟩
  · exact ⟨both rfl rfl, both rfl rfl, both rfl rfl, both rfl rfl, both rfl rfl⟩

/-! ## What the detector reports -/

/-- A listed fault leaves the detector of its site (R186). -/
theorem ListedFault.detector_eq {m : Mnemonic} {site : FaultSite} {f : Fault} (h : ListedFault m site f) :
    f.detector = some site.detector := by
  rcases h with ⟨-, rfl⟩ | ⟨-, a, rfl⟩ | ⟨-, a, rfl⟩ <;> rfl

/-- The step of a word leaves the detector as it observes that word, whatever the outcome (R208, R209). -/
theorem detectorOf_step {s : State} {w : Word} (hfetch : s.fetch = some w) :
    detectorOf (step s) =
      some (s.detector.observe s.launch.roles (fieldsOf w) (decode s.launch.catalogOrder w)) := by
  cases hdecode : decode s.launch.catalogOrder w with
  | illegal v =>
    rw [step_of_illegal hfetch hdecode, detectorOf_driveDetector]
    rfl
  | legal i =>
    rw [step_of_legal hfetch hdecode, detectorOf_driveDetector]
    rcases exec_next_or_listedFault i s with ⟨t, e⟩ | ⟨f, e, hf⟩
    · rw [e]; rfl
    · rw [e, detectorOf, hf.detector_eq]; rfl

/-- For every other row the two per-field outputs look at the whole read set (R209). -/
theorem explicitReadSet_eq_readSet {i : Instr} (h : i.mnemonic ∉ [Mnemonic.ordeal, .meltdown]) (roles : Roles) :
    explicitReadSet roles i = readSet roles i := by
  cases i with
  | ordeal | meltdown => simp [Instr.mnemonic] at h
  | _ => rfl

/-- The two per-field outputs look at no register of meltdown, and of ordeal only at a register that is the index (R209,
log 22). -/
theorem explicitReadSet_eq_zero {roles : Roles} {i : Instr}
    (h : i.mnemonic = .meltdown ∨ (i.mnemonic = .ordeal ∧ roles.ordealIndex = .imm)) :
    explicitReadSet roles i = 0 := by
  rcases h with hi | ⟨hi, hix⟩
  · cases i with
    | meltdown => rfl
    | _ => cases hi
  · cases i with
    | ordeal => rw [explicitReadSet, hix]; rfl
    | _ => cases hi

/-- Settles O39: each output of the detector is a statement about bits of the two sets it compares. -/
theorem detectorReportsReadAfterWrite : Obligations.DetectorReportsReadAfterWrite := by
  intro s w hfetch
  refine ⟨_, detectorOf_step hfetch, fun v hdecode => ?_, fun i hdecode => ?_⟩ <;> rw [hdecode]
  · simp [Detector.observe, verdictWriteSet, verdictReadSet, verdictExplicitReadSet]
  · refine ⟨rfl, and_ne_zero_iff _ _, fun hi => ?_, ?_, ?_⟩
    · simp [Detector.observe, verdictExplicitReadSet, explicitReadSet_eq_readSet hi]
    · intro hi
      simp [Detector.observe, verdictExplicitReadSet, explicitReadSet_eq_zero hi]
    · rintro op0 op1 imm16 slot rfl hix
      simp [Detector.observe, verdictExplicitReadSet, explicitReadSet, hix, indexRegs, inSet_regSet_iff, and_assoc]

/-! ## The registers an instruction changes -/

/-- The execution unit, where it completes, changes its destination only (R100). -/
theorem regsKept_of_aluInto {op : AluOp} {rd : RegNum} {a b : Word} {s t : State}
    (h : aluInto op rd a b s = .next t) : regsKept [rd] s t := by
  rcases aluInto_cases op rd a b s with ⟨-, e⟩ | ⟨-, e⟩
  · rw [e] at h; cases h
  · rw [e] at h; cases h; exact (wroteReg_writeReg_advance s rd _).2

theorem regsKept_of_execLw {rt rs : RegNum} {imm16 : BitVec 16} {s t : State}
    (h : execLw rt rs imm16 s = .next t) : regsKept [rt] s t := by
  cases hacc : s.accessible (effectiveAddress (s.readReg rs) imm16) .load with
  | true => rw [execLw_of_accessible hacc] at h; cases h; exact (wroteReg_writeReg_advance s rt _).2
  | false => rw [execLw_of_not_accessible hacc] at h; cases h

theorem regsKept_of_execSw {rt rs : RegNum} {imm16 : BitVec 16} {s t : State}
    (h : execSw rt rs imm16 s = .next t) : regsKept [] s t := by
  cases hacc : s.accessible (effectiveAddress (s.readReg rs) imm16) .store with
  | true => rw [execSw_of_accessible hacc] at h; cases h; exact fun _ _ => rfl
  | false => rw [execSw_of_not_accessible hacc] at h; cases h

theorem bandReg_mem_agentBand (d : Fin 8) : bandReg d ∈ agentBand := by
  revert d
  decide

/-- An instruction that completes changes registers of its write set only (R207). -/
theorem regsKept_of_exec {i : Instr} {s t : State} (h : exec i s = .next t) :
    regsKept (writeRegs s.launch.roles i) s t := by
  cases i with
  | add | sub | mul | and | or | slt | addi =>
    simp only [exec, execAdd, execSub, execMul, execAnd, execOr, execSlt, execAddi] at h
    exact regsKept_of_aluInto h
  | lw => exact regsKept_of_execLw h
  | sw => exact regsKept_of_execSw h
  | j | beq | bne => cases h; exact fun _ _ => rfl
  | jal => cases h; exact (wroteReg_writeReg_advance s 31 _).2
  | winst | winsight | wattach | wrepress | panic => cases h; exact (wroteReg_emit_advance s _ _ _).2
  | suppress | ego => cases h; exact (wroteReg_emitIf_advance s _ _ _ _ _).2
  | extract => cases h; exact (wroteReg_emitIf_advance s.afterDraw _ _ _ _ _).2
  | ordeal =>
    cases h
    exact fun r hr => (wroteReg_emitIf_advance s.afterDraw _ _ _ _ _).2 r
      (mt List.mem_singleton.1 (ne_of_mem_of_not_mem (bandReg_mem_agentBand _) hr).symm)
  | meltdown =>
    cases h
    exact fun r hr => by simpa using readReg_penaliseBand_of_notMem s hr

/-- Settles O40: a register outside the write set is register 0 or none of the registers the instruction changes. -/
theorem registersOutsideTheWriteSetAreKept : Obligations.RegistersOutsideTheWriteSetAreKept := by
  intro i s t h r hr
  by_cases hr0 : r = 0
  · rw [hr0, readReg_zero, readReg_zero]
  · refine regsKept_of_exec h r fun hmem => ?_
    have hin : inSet r (writeSet s.launch.roles i) = true := (inSet_regSet_iff _ _).2 ⟨hr0, hmem⟩
    rw [hr] at hin
    cases hin

end Sys2Proof.Machine
end

section
/-! PROOFS that an instruction depends on its read set only: the relation of two machines that agree on some registers,
and what keeps it. -/

namespace Sys2Proof.Machine

/-! ## Two machines that agree on some registers -/

/-- The machine `s` with the register file `regs`. -/
def State.withRegs (s : State) (regs : Vector Word 32) : State := { s with regs := regs }

/-- Two machines that are the same but for registers outside the list (`agreeOn_iff`). -/
inductive AgreeOn (l : List RegNum) : State → State → Prop where
  | intro {s : State} {regs : Vector Word 32} (hregs : ∀ r ∈ l, (s.withRegs regs).readReg r = s.readReg r) :
      AgreeOn l s (s.withRegs regs)

theorem agreeOn_iff (l : List RegNum) (s s' : State) :
    AgreeOn l s s' ↔ sameButRegs s s' ∧ ∀ r ∈ l, s'.readReg r = s.readReg r := by
  constructor
  · rintro ⟨hregs⟩
    exact ⟨⟨rfl, rfl, rfl, rfl, rfl, rfl⟩, hregs⟩
  · obtain ⟨regs, _, _, _, _, _, _⟩ := s'
    rintro ⟨⟨rfl, rfl, rfl, rfl, rfl, rfl⟩, hregs⟩
    exact .intro (regs := regs) hregs

/-- Agreement on the registers of a set: register 0 reads as zero in every machine (R22, R207). -/
theorem agreeOn_iff_regSet (l : List RegNum) (s s' : State) :
    AgreeOn l s s' ↔ sameButRegs s s' ∧ ∀ r, inSet r (regSet l) = true → s'.readReg r = s.readReg r := by
  simp only [agreeOn_iff, inSet_regSet_iff, and_imp]
  refine and_congr_right fun _ => forall_congr' fun r => ⟨fun h _ => h, fun h hr => ?_⟩
  by_cases hr0 : r = 0
  · rw [hr0, readReg_zero, readReg_zero]
  · exact h hr0 hr

namespace AgreeOn
variable {l : List RegNum} {s s' : State} (h : AgreeOn l s s')
include h

theorem readReg_eq {r : RegNum} (hr : r ∈ l) : s'.readReg r = s.readReg r := ((agreeOn_iff l s s').1 h).2 r hr
theorem launch_eq : s'.launch = s.launch := by cases h; rfl
theorem pc_eq : s'.pc = s.pc := by cases h; rfl
theorem drawn_eq (n : Nat) [NeZero n] : s'.drawn n = s.drawn n := by cases h; rfl
theorem memRead_eq (a : Word) : memRead s' a = memRead s a := by cases h; rfl

/-- An index is the same where its register, if it has one, reads the same (R150, R207). -/
theorem index_eq {ix : IndexSlot} {op0 op1 : RegNum} (hix : indexRegs ix op0 op1 ⊆ l) (imm16 : BitVec 16) :
    s'.index ix op0 op1 imm16 = s.index ix op0 op1 imm16 := by
  cases ix with
  | imm => rw [State.index, State.index, h.launch_eq]
  | reg slot => rw [State.index, State.index, h.launch_eq, h.readReg_eq (hix List.mem_cons_self)]

theorem mono {l' : List RegNum} (hl : l' ⊆ l) : AgreeOn l' s s' := by
  obtain ⟨hregs⟩ := h
  exact .intro fun r hr => hregs r (hl hr)

theorem nil : AgreeOn [] s s' := h.mono (List.nil_subset l)

/-- After the same value is written to a register in both, they agree on it too. -/
theorem writeReg (r : RegNum) (v : Word) : AgreeOn (r :: l) (s.writeReg r v) (s'.writeReg r v) := by
  refine (agreeOn_iff _ _ _).2 ⟨?_, fun q hq => ?_⟩
  · cases h; unfold State.writeReg; split <;> exact ⟨rfl, rfl, rfl, rfl, rfl, rfl⟩
  · rw [readReg_writeReg, readReg_writeReg]
    split
    · rfl
    · next hne =>
      rcases List.mem_cons.1 hq with rfl | hmem
      · obtain rfl : q = 0 := not_not.1 fun hq0 => hne ⟨rfl, hq0⟩
        rw [readReg_zero, readReg_zero]
      · exact h.readReg_eq hmem

theorem setPc (pc : Word) : AgreeOn l (s.setPc pc) (s'.setPc pc) := by
  obtain ⟨hregs⟩ := h
  exact .intro (s := s.setPc pc) hregs

theorem advance : AgreeOn l s.advance s'.advance := by
  obtain ⟨hregs⟩ := h
  exact .intro (s := s.advance) hregs

theorem afterDraw : AgreeOn l s.afterDraw s'.afterDraw := by
  obtain ⟨hregs⟩ := h
  exact .intro (s := s.afterDraw) hregs

theorem emit (e : EmitEvent) : AgreeOn l (s.emit e) (s'.emit e) := by
  obtain ⟨hregs⟩ := h
  exact .intro (s := s.emit e) hregs

theorem emitIf (writes : Bool) (m : Mnemonic) (args : List Word) :
    AgreeOn l (s.emitIf writes m args) (s'.emitIf writes m args) := by
  cases writes with
  | false => exact h
  | true =>
    obtain ⟨hregs⟩ := h
    exact (AgreeOn.intro hregs).emit _

/-- `MemWrite` fails in both alike, or stores the same word in both (R48). -/
theorem memWrite_cases (a v : Word) :
    (∃ e, memWrite s a v = .error e ∧ memWrite s' a v = .error e) ∨
      ∃ t t', memWrite s a v = .ok t ∧ memWrite s' a v = .ok t' ∧ AgreeOn l t t' := by
  have haccessible : s'.accessible a .store = s.accessible a .store := by cases h; rfl
  unfold memWrite
  rw [haccessible]
  cases s.accessible a .store with
  | true =>
    obtain ⟨hregs⟩ := h
    exact .inr ⟨_, _, rfl, rfl,
      .intro (s := { s with mem := s.mem.writeWord s.launch.byteOrder a.toNat v }) hregs⟩
  | false => exact .inl ⟨_, rfl, rfl⟩

theorem penaliseBand (hband : bandRegs ⊆ l) : AgreeOn l (penaliseBand s) (penaliseBand s') :=
  List.foldl_rel (r := AgreeOn l) h fun r hr t t' ht => by
    rw [ht.readReg_eq (hband hr)]; exact (ht.writeReg r _).mono (List.subset_cons_self r l)

theorem bumpCounter (hbase : basePtr ∈ l) : AgreeOn l (bumpCounter s) (bumpCounter s') := by
  unfold Machine.bumpCounter counterAddress
  rw [h.readReg_eq hbase, h.memRead_eq, h.launch_eq]
  cases memRead s (s.readReg basePtr + 4) with
  | error => exact h
  | ok c =>
    rcases h.memWrite_cases (s.readReg basePtr + 4) (counterNext s.launch.counterCeiling c) with
      ⟨e, he, he'⟩ | ⟨t, t', ht, ht', hsame⟩
    · simpa only [he, he'] using h
    · simpa only [ht, ht'] using hsame

/-- A fault raised in both leaves the same report (R186). -/
theorem raise (rel : State → State → Prop) (mk : FaultSite → Fault) :
    outcomesRelated rel (· = ·) (raise mk s) (raise mk s') := by
  cases h; exact rfl

/-- The execution unit faults in both alike, or writes the same register in both (R100). -/
theorem aluInto (op : AluOp) (rd : RegNum) (a b : Word) :
    outcomesRelated (AgreeOn (rd :: l)) (· = ·) (aluInto op rd a b s) (aluInto op rd a b s') := by
  unfold Machine.aluInto
  split
  · exact h.raise _ _
  · exact (h.writeReg _ _).advance

theorem execLw {rs : RegNum} (hrs : rs ∈ l) (rt : RegNum) (imm16 : BitVec 16) :
    outcomesRelated (AgreeOn (rt :: l)) (· = ·) (execLw rt rs imm16 s) (execLw rt rs imm16 s') := by
  unfold Machine.execLw
  rw [h.readReg_eq hrs, h.memRead_eq]
  cases memRead s (effectiveAddress (s.readReg rs) imm16) with
  | error e => exact h.raise _ _
  | ok v => exact (h.writeReg rt v).advance

theorem execSw {rt rs : RegNum} (hrs : rs ∈ l) (hrt : rt ∈ l) (imm16 : BitVec 16) :
    outcomesRelated (AgreeOn l) (· = ·) (execSw rt rs imm16 s) (execSw rt rs imm16 s') := by
  unfold Machine.execSw
  rw [h.readReg_eq hrs, h.readReg_eq hrt]
  rcases h.memWrite_cases (effectiveAddress (s.readReg rs) imm16) (s.readReg rt) with
    ⟨e, he, he'⟩ | ⟨t, t', ht, ht', hsame⟩
  · rw [he, he']; exact h.raise _ _
  · rw [ht, ht']; exact hsame.advance

end AgreeOn

/-- Two machines that agree on the read set of an instruction end in the same fault, or in next states that agree on its
write set (R207). -/
theorem agreeOn_exec {i : Instr} {s s' : State} (h : AgreeOn (readRegs s.launch.roles i) s s') :
    outcomesRelated (AgreeOn (writeRegs s.launch.roles i)) (· = ·) (exec i s) (exec i s') := by
  have hnil : AgreeOn [] s s' := h.nil
  have hlaunch := h.launch_eq
  cases i with
  | add rd rs rt | sub rd rs rt | mul rd rs rt | and rd rs rt | or rd rs rt | slt rd rs rt =>
    have hrs := h.readReg_eq (r := rs) List.mem_cons_self
    have hrt := h.readReg_eq (r := rt) (List.mem_cons_of_mem _ List.mem_cons_self)
    simp only [exec, execAdd, execSub, execMul, execAnd, execOr, execSlt, hrs, hrt]
    exact hnil.aluInto _ rd _ _
  | addi rt rs imm16 =>
    have hrs := h.readReg_eq (r := rs) List.mem_cons_self
    simp only [exec, execAddi, hrs]
    exact hnil.aluInto _ rt _ _
  | lw rt rs imm16 =>
    refine outcomesRelated_mono (fun t t' ht => ?_) (h.execLw List.mem_cons_self rt imm16)
    exact ht.mono (List.cons_subset_cons rt (List.nil_subset _))
  | sw rt rs imm16 =>
    refine outcomesRelated_mono (fun t t' ht => ht.nil) (h.execSw List.mem_cons_self ?_ imm16)
    exact List.mem_cons_of_mem _ List.mem_cons_self
  | j => rw [exec, exec, execJ, execJ, h.pc_eq]; exact hnil.setPc _
  | jal => simp only [exec, execJal, h.pc_eq]; exact (hnil.writeReg _ _).setPc _
  | beq rs rt imm16 | bne rs rt imm16 =>
    have hrs := h.readReg_eq (r := rs) List.mem_cons_self
    have hrt := h.readReg_eq (r := rt) (List.mem_cons_of_mem _ List.mem_cons_self)
    simp only [exec, execBeq, execBne, hrs, hrt, h.pc_eq]
    exact hnil.setPc _
  | extract op0 op1 imm16 =>
    have hbase := h.afterDraw.readReg_eq List.mem_cons_self
    have hindex := h.afterDraw.index_eq (List.subset_cons_self _ _) imm16
    simp only [exec, execExtract, extractWith, h.drawn_eq, h.afterDraw.launch_eq]
    simp only [afterDraw_launch, hbase, hindex]
    exact ((hnil.afterDraw.writeReg _ _).emitIf _ _ _).advance
  | winst | winsight | wattach | wrepress =>
    have hsrc := h.readReg_eq List.mem_cons_self
    simp only [exec, execWinst, execWinsight, execWattach, execWrepress, work, hlaunch, hsrc]
    exact ((hnil.writeReg _ _).emit _).advance
  | suppress op0 op1 imm16 =>
    have hagent := h.readReg_eq List.mem_cons_self
    have habno := h.readReg_eq (List.mem_cons_of_mem _ List.mem_cons_self)
    have hindex := h.index_eq (fun _ hr => List.mem_cons_of_mem _ (List.mem_cons_of_mem _ hr)) imm16
    simp only [exec, execSuppress, hlaunch, hagent, habno, hindex]
    exact ((hnil.writeReg _ _).emitIf _ _ _).advance
  | ordeal op0 op1 imm16 =>
    have hindex := h.afterDraw.index_eq (List.subset_append_right _ _) imm16
    have hband (d : Fin 8) := h.afterDraw.readReg_eq (List.mem_append_left _ (bandReg_mem_agentBand d))
    simp only [exec, execOrdeal, ordealWith, h.drawn_eq, h.afterDraw.launch_eq]
    simp only [afterDraw_launch, hband, hindex]
    exact (((h.afterDraw.mono (List.subset_append_left _ _)).writeReg _ _).emitIf _ _ _).advance.mono
      (List.subset_cons_self _ _)
  | ego op0 op1 imm16 =>
    have hdest := h.readReg_eq List.mem_cons_self
    have hindex := h.index_eq (List.subset_cons_self _ _) imm16
    simp only [exec, execEgo, hlaunch, hdest, hindex]
    exact ((hnil.writeReg _ _).emitIf _ _ _).advance
  | panic =>
    simp only [exec, execPanic, hlaunch]
    exact ((hnil.writeReg _ _).emit _).advance
  | meltdown =>
    simp only [exec, execMeltdown, hlaunch]
    have hbump := (h.penaliseBand (List.subset_append_left _ _)).bumpCounter
      (List.mem_append_right _ List.mem_cons_self)
    exact (hbump.emitIf _ _ _).advance.mono (List.subset_append_left _ _)

/-- Settles O41: the statement is `agreeOn_exec`, with agreement on the sets of registers. -/
theorem instructionsDependOnTheirReadSetOnly : Obligations.InstructionsDependOnTheirReadSetOnly := by
  intro i s s' hsame hregs
  have hexec := agreeOn_exec ((agreeOn_iff_regSet _ s s').2 ⟨hsame, hregs⟩)
  exact outcomesRelated_mono (fun t t' => (agreeOn_iff_regSet _ t t').1) hexec

end Sys2Proof.Machine
end

section
/-! PROOFS that the words written out in the specification are the packed words of the listed instructions. -/

namespace Sys2Proof.Machine

/-- A word that packs a reachable instruction decodes to it under the default catalog order (R73, R81). -/
theorem decode_default_of_encode_eq {i : Instr} {w : Word} (hreach : i.wellFormed defaultCatalogOrder = true)
    (hword : encode i = w) : decode defaultCatalogOrder w = .legal i :=
  hword ▸ decodeOfEncodeIsTheInstruction.1 defaultCatalogOrder catalogOrderOk_default i hreach

/-- Settles O8: each legal word is the packed word of its instruction, mul being the reachable one of its collision; the
zero word has opcode 0 and a funct that no row has. -/
theorem specWordsDecodeAsListed : Obligations.SpecWordsDecodeAsListed := by
  refine ⟨?add, ?mul, ?j, ?bne, ?lw, ?ego, ?suppress, ?zero⟩
  case zero => exact (decode_eq_illegal_iff _ _).2 (by decide)
  all_goals exact decode_default_of_encode_eq (by decide) (by decide)

end Sys2Proof.Machine
end
